-- ==== Sys2Proof/Word.lean ====
section
/-!
DEFINITION. The Word of the rm machine (00_scope.md rule R4): an unsigned 8-bit integer, used for
data, addresses, register indices, immediates and opcodes alike. `+`, `-` and `*` of `BitVec 8` are
the spec's `+8`, `-8`, `*8` (modulo 256), `/` is its `/8`, and `<` and `≤` compare unsigned values.
-/
namespace Sys2Proof

/-- R4: "A Word is an unsigned integer in 0..255." -/
abbrev Word := BitVec 8

end Sys2Proof
end

