-- ==== Sys2Proof/Config.lean ====
section
/-!
DEFINITION. What an implementation fixes (00_scope.md rule R3): the two closed sets of names the
parameters range over (the 30 mnemonics of R56, the fault kinds of R130), the three parameters
`OPCODE_MAP`, `FAULT_CODE`, `MAX_PROGRAM` (`Parameters`). The parameters' default values stand
beside what uses them: `defaultOpcodeMap` in Decode.lean, `defaultFaultCode` in Machine/Ops.lean,
`defaultMaxProgram` and `defaultParameters` in Machine/Transactions.lean. The spec leaves no value undefined, so there is no free
value here.
-/
namespace Sys2Proof

/-- R56, R57: the 30 mnemonics, in the order of the spec's opcode table. -/
inductive Mnemonic where
  | movRI
  | movRR
  | movRM
  | movAI
  | movAR
  | movAM
  | movMI
  | movMR
  | movMM
  | addRI
  | addRR
  | subRI
  | subRR
  | mulRI
  | mulRR
  | divRI
  | divRR
  | pushI
  | pushR
  | popR
  | jmprI
  | jmprR
  | jmpaI
  | jmpaR
  | cmpRR
  | cmpRI
  | jerI
  | jerR
  | jeaI
  | jeaR
deriving DecidableEq, Repr

/-- R56: every mnemonic once, in table order. -/
def Mnemonic.all : List Mnemonic :=
  [.movRI, .movRR, .movRM, .movAI, .movAR, .movAM, .movMI, .movMR,
   .movMM, .addRI, .addRR, .subRI, .subRR, .mulRI, .mulRR, .divRI,
   .divRR, .pushI, .pushR, .popR, .jmprI, .jmprR, .jmpaI, .jmpaR,
   .cmpRR, .cmpRI, .jerI, .jerR, .jeaI, .jeaR]

/-- R57: `OPCODE_MAP`, "an injective function from the 30 mnemonics to Words, which the model takes
as an argument". -/
structure OpcodeMap where
  value : Mnemonic → Word
  injective : ∀ j k : Mnemonic, value j = value k → j = k

/-- R130: the fault kinds. -/
inductive FaultKind where
  /-- R131: a register index outside the fixed 8-entry set. -/
  | invalidRegister
  /-- R132: a guarded memory access at an address below the stack base. -/
  | memoryGuardViolation
  /-- R133: division by zero. -/
  | arithmeticFault
  /-- R135: reserved; never raised (log entry 15). -/
  | invalidInstructionPointer
  /-- R134: the operation byte is the value of no mnemonic. -/
  | invalidOpcode
deriving DecidableEq, Repr

/-- R3, R130: `FAULT_CODE`, the number a host is shown for what the fault latch holds. The spec leaves the numbers
to the model as an argument (D9, log entry 2). -/
abbrev FaultCode := Option FaultKind → Nat

/-- R3: the three parameters the spec leaves "to the model as arguments". -/
structure Parameters where
  /-- `OPCODE_MAP` (D1, log entry 1). -/
  opcodeMap : OpcodeMap
  /-- `FAULT_CODE` (D9, log entry 2). -/
  faultCode : FaultCode
  /-- `MAX_PROGRAM`, the "largest N accepted by Load" (D22, log entry 3). -/
  maxProgram : Nat

end Sys2Proof
end

