-- ==== Sys2Proof/Machine/State.lean ====
section
/-!
DEFINITION. The state of the machine: "the register file x[0..7], the memory mem[0..255], and the
fault latch fault. Nothing else is state" (10_state.md). Plain data, and its value after Reset (R24).
-/
namespace Sys2Proof.Machine

/-- R10: the names of the 8 registers, in index order. -/
inductive Reg where
  | ip | sp | sb | a | b | c | d | f
deriving DecidableEq, Repr

/-- R10: the register file, each register a Word under its own name. No register is hardwired. -/
structure Registers where
  ip : Word
  sp : Word
  sb : Word
  a : Word
  b : Word
  c : Word
  d : Word
  f : Word
deriving DecidableEq, Repr

/-- R20: the 256 one-byte cells, as a list of (address, byte) pairs in one canonical form (`Memory.wf`). -/
abbrev Memory := List Host.Cell

/-- R24: what a cell that is not listed holds: "a memory cell or register that nothing has written since
Reset reads as 0". -/
def Memory.unlisted : Word := 0

/-- The canonical form of a memory: addresses strictly rising, every address one of the 256 of R20, and no
entry equal to what an unlisted cell holds. Equal memories are then equal lists (log entry 20). -/
abbrev Memory.wf (m : Memory) : Prop :=
  m.Pairwise (fun c c' => c.1 < c'.1) ∧ ∀ c ∈ m, c.1 < 256 ∧ c.2 ≠ Memory.unlisted

/-- The whole state of the machine (10_state.md, R22). -/
structure State where
  /-- R10: the register file `x[0..7]`. -/
  regs : Registers
  /-- R20: the memory `mem[0..255]`. -/
  mem : Memory
  /-- R23: the fault latch, "none or exactly one of the fault kinds". -/
  fault : Option FaultKind
deriving DecidableEq, Repr

/-- R24, R150: "every register is 0 and every memory cell is 0", the fault latch is none. The spec gives
every reset value; the model chooses none. -/
def State.reset : State where
  regs := ⟨0, 0, 0, 0, 0, 0, 0, 0⟩
  mem := []
  fault := none

/-- Why the model answers with the host's outcome `fault`. A fault of the SPEC is not one of these: it is a
next state with the latch set (R138, log entry 4). -/
inductive Fault where
  /-- Raised by `executeWith` (Machine/Transactions.lean) alone, when its fuel ends with the machine still
  Running: R160 "Execute need not return". Safe: nothing is said of the state such a run reaches. -/
  | executeDidNotReturn
deriving DecidableEq, Repr

/-- Why the model refuses. -/
inductive Refusal where
  /-- Raised by an arm of `exec` whose instruction has no meaning yet. Safe. No arm does so. -/
  | notModelled (mnemonic : String)
  /-- Raised by `loadWith` when a Load was already applied since the last Reset (R151 "is applied once", D12, U5).
  Safe. -/
  | loadTwice
  /-- Raised by `loadWith` on a machine that is not in the Reset state (R151, D12). Safe. -/
  | loadOutsideReset
  /-- Raised by `loadWith` for a sequence longer than `MAX_PROGRAM` (R151, D22). Safe. -/
  | loadTooLong
deriving DecidableEq, Repr

end Sys2Proof.Machine
end

