-- ==== Sys2Proof/Machine/Ops.lean ====
section
/-!
DEFINITION. The named operations over registers and memory (00_scope.md section 5, R18, R36, R74), the
run status (R22), and taking a fault (R138). Names follow the spec's primitives: `reg` is `x[i]`, `rd` and
`wr` are the checked ports, `gRead` and `gWrite` the guarded ones.
-/
namespace Sys2Proof.Machine

/-! ## The register file -/

/-- R10: the index of a register. -/
def Reg.index : Reg → Word
  | .ip => 0
  | .sp => 1
  | .sb => 2
  | .a => 3
  | .b => 4
  | .c => 5
  | .d => 6
  | .f => 7

/-- R12: the register an index selects; "a register operand field whose value is 8 or more selects no
register". -/
def Reg.ofIndex (i : Word) : Option Reg :=
  match i.toNat with
  | 0 => some .ip
  | 1 => some .sp
  | 2 => some .sb
  | 3 => some .a
  | 4 => some .b
  | 5 => some .c
  | 6 => some .d
  | 7 => some .f
  | _ => none

/-- One register of the file. -/
def Registers.get (x : Registers) : Reg → Word
  | .ip => x.ip
  | .sp => x.sp
  | .sb => x.sb
  | .a => x.a
  | .b => x.b
  | .c => x.c
  | .d => x.d
  | .f => x.f

/-- The file with one register replaced. -/
def Registers.set (x : Registers) (r : Reg) (v : Word) : Registers :=
  match r with
  | .ip => { x with ip := v }
  | .sp => { x with sp := v }
  | .sb => { x with sb := v }
  | .a => { x with a := v }
  | .b => { x with b := v }
  | .c => { x with c := v }
  | .d => { x with d := v }
  | .f => { x with f := v }

/-- `x[i]`: raw read of a register. -/
def State.reg (s : State) (r : Reg) : Word := s.regs.get r

/-- `x[i] <- v`: raw write of a register. Every register is plain storage (R11, R17). -/
def State.setReg (s : State) (r : Reg) (v : Word) : State := { s with regs := s.regs.set r v }

/-! ## Memory -/

/-- The byte listed at an address, or what an unlisted cell holds. -/
def Memory.read : Memory → Nat → Word
  | [], _ => Memory.unlisted
  | (k, v) :: rest, a => if k = a then v else Memory.read rest a

/-- Put an entry before the first entry of a higher address. -/
def Memory.insert (a : Nat) (v : Word) : Memory → Memory
  | [] => [(a, v)]
  | (k, w) :: rest => if a < k then (a, v) :: (k, w) :: rest else (k, w) :: Memory.insert a v rest

/-- Replace the byte at an address; the byte an unlisted cell holds is written by removing the entry. -/
def Memory.write (m : Memory) (a : Nat) (v : Word) : Memory :=
  let rest := m.filter (fun c => c.1 != a)
  if v = Memory.unlisted then rest else Memory.insert a v rest

/-- `MemRead(a, 1)`: raw read of a cell, no guard (R38). -/
def State.cell (s : State) (a : Word) : Word := Memory.read s.mem a.toNat

/-- `MemWrite(a, 1, v)`: raw write of a cell, no guard (R38). -/
def State.setCell (s : State) (a v : Word) : State := { s with mem := Memory.write s.mem a.toNat v }

/-! ## Status and faults -/

/-- R22: the run status, a function of the state. -/
inductive Status where
  | running
  | halted
  | faulted
deriving DecidableEq, Repr

/-- R22: "Faulted if fault ≠ none; otherwise Halted if x[0] = 0; otherwise Running". -/
def State.status (s : State) : Status :=
  match s.fault with
  | some _ => .faulted
  | none => if s.reg .ip = 0 then .halted else .running

/-- R138: taking a fault. "raise K sets fault <- K and ends the step at once"; nothing is saved, control goes
nowhere, and every write already made stays. It is a next state of the machine (log entry 4). There is no
return from a fault (R140). -/
def State.takeFault (s : State) (k : FaultKind) : State := { s with fault := some k }

/-- R130: the default `FAULT_CODE` of the latch's content; 0 for no fault. DESIGN CHOICE: the source gives no
number (D9, log entry 2). No instruction reads a code; Inspect shows it (`inspectWith`). -/
def defaultFaultCode : FaultCode
  | none => 0
  | some .invalidRegister => 1
  | some .memoryGuardViolation => 2
  | some .arithmeticFault => 3
  | some .invalidInstructionPointer => 4
  | some .invalidOpcode => 5

/-! ## The checked register ports and the guarded memory ports -/

/-- R74: `rd(i)`: "if i > 7 then raise InvalidRegister else return x[i]". -/
def State.rd (s : State) (i : Word) : Except FaultKind Word :=
  match Reg.ofIndex i with
  | some r => .ok (s.reg r)
  | none => .error .invalidRegister

/-- R74: `wr(i, v)`: "if i > 7 then raise InvalidRegister else x[i] <- v". -/
def State.wr (s : State) (i v : Word) : Except FaultKind State :=
  match Reg.ofIndex i with
  | some r => .ok (s.setReg r v)
  | none => .error .invalidRegister

/-- R36: `GRead(a)`. SB is read afresh at every access (R18). -/
def State.gRead (s : State) (a : Word) : Except FaultKind Word :=
  if a < s.reg .sb then .error .memoryGuardViolation else .ok (s.cell a)

/-- R36: `GWrite(a, v)`. There is no upper bound check. -/
def State.gWrite (s : State) (a v : Word) : Except FaultKind State :=
  if a < s.reg .sb then .error .memoryGuardViolation else .ok (s.setCell a v)

/-! ## From a primitive instruction to the machine's next state -/

/-- What a primitive instruction does to a state: it makes its one write, or raises a fault having written
nothing (R75: "every primitive instruction makes exactly one write and it comes last"). -/
abbrev Primitive := State → Except FaultKind State

/-- R138: end one primitive instruction. Done: its state is next. Raised: the fault is taken in the state the
primitive started from, since it had written nothing. -/
def finish (p : Primitive) (s : State) : Host.Outcome State Fault Refusal :=
  match p s with
  | .ok t => .next t
  | .error k => .next (s.takeFault k)

/-- R100: the micro-op sequencer. Two primitives in a fixed order, no fetch between them. "If the first
micro-op raises a fault the second is not issued; if the second raises a fault the effects of the first stay." -/
def sequenceMicroOps (first second : Primitive) (s : State) : Host.Outcome State Fault Refusal :=
  match first s with
  | .ok t => finish second t
  | .error k => .next (s.takeFault k)

end Sys2Proof.Machine
end

