-- ==== Sys2Proof/Machine/Operands.lean ====
section
/-!
DEFINITION. The operand forms (30_encoding.md rule R53, 41_move.md): the three sources (Imm, Reg, [Reg])
and the three destinations (Reg, [Abs], [Reg]). A source is resolved completely before the destination is
looked at (40_fetch_decode.md rule R75).
-/
namespace Sys2Proof.Machine

/-- A source operand: how its value is read from the state. -/
abbrev Source := State → Except FaultKind Word

/-- A destination operand: how a value is stored through it. -/
abbrev Destination := Word → Primitive

/-- R53 Imm: "the operand value is the field". -/
def immSource (v : Word) : Source := fun _ => .ok v

/-- R53 Reg as a source: `rd(i)`. -/
def regSource (i : Word) : Source := fun s => s.rd i

/-- R53 [Reg] as a source: `rd(i)` gives the address of a guarded read (R37). -/
def memSource (i : Word) : Source := fun s => do
  let a ← s.rd i
  s.gRead a

/-- R53 Reg as a destination: `wr(i, v)`. -/
def regDestination (i : Word) : Destination := fun v s => s.wr i v

/-- R53 [Abs] as a destination: the field is the address of a guarded write (R37). -/
def absDestination (a : Word) : Destination := fun v s => s.gWrite a v

/-- R53 [Reg] as a destination: `rd(i)` gives the address of a guarded write (R37). -/
def memDestination (i : Word) : Destination := fun v s => do
  let a ← s.rd i
  s.gWrite a v

end Sys2Proof.Machine
end

