-- ==== Sys2Proof/Machine/Arithmetic.lean ====
section
/-!
DEFINITION. The arithmetic family (42_arithmetic.md rules R90 to R99): the ALU on two Words, 8-bit wraparound,
no flag written (R98).
-/
namespace Sys2Proof.Machine

/-- What the ALU computes from the left operand (the destination's old value) and the right one, or the fault
it raises. -/
abbrev AluOp := Word → Word → Except FaultKind Word

/-- R98: `(t + v) mod 256`. -/
def aluAdd : AluOp := fun t v => .ok (t + v)
/-- R98: `(t - v) mod 256`, taken in 0..255. -/
def aluSub : AluOp := fun t v => .ok (t - v)
/-- R98: `(t * v) mod 256`. -/
def aluMul : AluOp := fun t v => .ok (t * v)
/-- R98, R99: `floor(t / v)`, ArithmeticFault for `v = 0` (rounding: D11, log entry 12). -/
def aluDiv : AluOp := fun t v => if v = 0 then .error .arithmeticFault else .ok (t / v)

/-- R75, R90 to R97: the source, then the destination's old value, then the operation with its own check, then
the write. -/
def arithmetic (op : AluOp) (d : Word) (source : Source) : Primitive := fun s => do
  let v ← source s
  let t ← s.rd d
  let r ← op t v
  s.wr d r

/-- R90: `t <- rd(d); wr(d, t +8 v)`. -/
def addRI (d v : Word) : Primitive := arithmetic aluAdd d (immSource v)
/-- R91: `v <- rd(s); t <- rd(d); wr(d, t +8 v)`. -/
def addRR (d s : Word) : Primitive := arithmetic aluAdd d (regSource s)
/-- R92: `t <- rd(d); wr(d, t -8 v)`. -/
def subRI (d v : Word) : Primitive := arithmetic aluSub d (immSource v)
/-- R93: `v <- rd(s); t <- rd(d); wr(d, t -8 v)`. -/
def subRR (d s : Word) : Primitive := arithmetic aluSub d (regSource s)
/-- R94: `t <- rd(d); wr(d, t *8 v)`. -/
def mulRI (d v : Word) : Primitive := arithmetic aluMul d (immSource v)
/-- R95: `v <- rd(s); t <- rd(d); wr(d, t *8 v)`. -/
def mulRR (d s : Word) : Primitive := arithmetic aluMul d (regSource s)
/-- R96: `t <- rd(d); if v = 0 then raise ArithmeticFault; wr(d, t /8 v)`. -/
def divRI (d v : Word) : Primitive := arithmetic aluDiv d (immSource v)
/-- R97: `v <- rd(s); t <- rd(d); if v = 0 then raise ArithmeticFault; wr(d, t /8 v)`. -/
def divRR (d s : Word) : Primitive := arithmetic aluDiv d (regSource s)

/-- R90 ADD.RI. -/
def execAddRI (d v : Word) (s : State) : Host.Outcome State Fault Refusal := finish (addRI d v) s
/-- R91 ADD.RR. -/
def execAddRR (d r : Word) (s : State) : Host.Outcome State Fault Refusal := finish (addRR d r) s
/-- R92 SUB.RI. -/
def execSubRI (d v : Word) (s : State) : Host.Outcome State Fault Refusal := finish (subRI d v) s
/-- R93 SUB.RR. -/
def execSubRR (d r : Word) (s : State) : Host.Outcome State Fault Refusal := finish (subRR d r) s
/-- R94 MUL.RI. -/
def execMulRI (d v : Word) (s : State) : Host.Outcome State Fault Refusal := finish (mulRI d v) s
/-- R95 MUL.RR. -/
def execMulRR (d r : Word) (s : State) : Host.Outcome State Fault Refusal := finish (mulRR d r) s
/-- R96 DIV.RI. -/
def execDivRI (d v : Word) (s : State) : Host.Outcome State Fault Refusal := finish (divRI d v) s
/-- R97 DIV.RR. -/
def execDivRR (d r : Word) (s : State) : Host.Outcome State Fault Refusal := finish (divRR d r) s

end Sys2Proof.Machine
end

