-- ==== Sys2Proof/Machine/Flags.lean ====
section
/-!
DEFINITION. The flags (10_state.md rules R15, R16; 45_compare.md rules R116 to R118). They are bits of the
Word in register F: `eq` is bit 0 (weight 1), `lt` is bit 1 (weight 2) (R15; D15, log entry 18).
-/
namespace Sys2Proof.Machine

/-- R15: `eq` is `F[0]`. -/
def eqFlag (f : Word) : Bool := f.getLsbD 0

/-- R15: `lt` is `F[1]`. No instruction reads it as a flag (R16). -/
def ltFlag (f : Word) : Bool := f.getLsbD 1

/-- R116: `(x[7] & 0xFC) | (eq ? 0x01 : 0) | (lt ? 0x02 : 0)` for a compare of `t` with `v`; bits 7..2 kept,
the comparison unsigned. -/
def compareFlags (f t v : Word) : Word :=
  (f &&& 0xFC) ||| (if t = v then 0x01 else 0) ||| (if t < v then 0x02 else 0)

end Sys2Proof.Machine
end

