-- ==== Sys2Proof/Machine/Compare.lean ====
section
/-!
DEFINITION. Compares (45_compare.md rules R116 to R118): they write two bits of F and nothing else.
-/
namespace Sys2Proof.Machine

/-- R116, R117: the right operand, then the left one, then bits 1..0 of F. -/
def compareOperands (left : Word) (source : Source) : Primitive := fun s => do
  let v ← source s
  let t ← s.rd left
  .ok (s.setReg .f (compareFlags (s.reg .f) t v))

/-- R116 CMP.RR. -/
def execCmpRR (a b : Word) (s : State) : Host.Outcome State Fault Refusal := finish (compareOperands a (regSource b)) s
/-- R117 CMP.RI. -/
def execCmpRI (a v : Word) (s : State) : Host.Outcome State Fault Refusal := finish (compareOperands a (immSource v)) s

end Sys2Proof.Machine
end

