-- ==== Sys2Proof/Machine/Jump.lean ====
section
/-!
DEFINITION. Unconditional jumps (44_jump.md rules R110 to R114). The IP a relative jump subtracts from is the
post-fetch IP (R78, log entry 19); IP is written through the raw port and never checked (R14).
-/
namespace Sys2Proof.Machine

/-- `x[0] <- x[0] -8 k` with `k` the operand's value. -/
def jumpRelative (source : Source) : Primitive := fun s => do
  let k ← source s
  .ok (s.setReg .ip (s.reg .ip - k))

/-- `x[0] <- t` with `t` the operand's value. -/
def jumpAbsolute (source : Source) : Primitive := fun s => do
  let t ← source s
  .ok (s.setReg .ip t)

/-- R110 JMPR.I: `x[0] <- x[0] -8 k`. -/
def execJmprI (k : Word) (s : State) : Host.Outcome State Fault Refusal := finish (jumpRelative (immSource k)) s
/-- R111 JMPR.R: `v <- rd(r); x[0] <- x[0] -8 v`. -/
def execJmprR (r : Word) (s : State) : Host.Outcome State Fault Refusal := finish (jumpRelative (regSource r)) s
/-- R112 JMPA.I: `x[0] <- t`. -/
def execJmpaI (t : Word) (s : State) : Host.Outcome State Fault Refusal := finish (jumpAbsolute (immSource t)) s
/-- R113 JMPA.R: `v <- rd(r); x[0] <- v`. -/
def execJmpaR (r : Word) (s : State) : Host.Outcome State Fault Refusal := finish (jumpAbsolute (regSource r)) s

end Sys2Proof.Machine
end

