-- ==== Sys2Proof/Machine/CondJump.lean ====
section
/-!
DEFINITION. Conditional jumps on equality (46_condjump.md rules R120 to R124): the corresponding jump, "only
performed if flags.eq is set; otherwise falls through". Not performed, the operand is not resolved at all
(R121, R123; D10, log entry 11).
-/
namespace Sys2Proof.Machine

/-- Perform a jump when bit 0 of F is 1 as the instruction is dispatched; otherwise change nothing. -/
def ifEqual (jump : Primitive) : Primitive := fun s =>
  if eqFlag (s.reg .f) then jump s else .ok s

/-- R120 JER.I. -/
def execJerI (k : Word) (s : State) : Host.Outcome State Fault Refusal :=
  finish (ifEqual (jumpRelative (immSource k))) s
/-- R121 JER.R. -/
def execJerR (r : Word) (s : State) : Host.Outcome State Fault Refusal :=
  finish (ifEqual (jumpRelative (regSource r))) s
/-- R122 JEA.I. -/
def execJeaI (t : Word) (s : State) : Host.Outcome State Fault Refusal :=
  finish (ifEqual (jumpAbsolute (immSource t))) s
/-- R123 JEA.R. -/
def execJeaR (r : Word) (s : State) : Host.Outcome State Fault Refusal :=
  finish (ifEqual (jumpAbsolute (regSource r))) s

end Sys2Proof.Machine
end

