-- ==== Sys2Proof/Machine/Move.lean ====
section
/-!
DEFINITION. The move family (41_move.md rules R80 to R89): three destinations times three sources, one
shared operation.
-/
namespace Sys2Proof.Machine

/-- A move: resolve the source completely, then store through the destination (R75). -/
def move (destination : Destination) (source : Source) : Primitive := fun s => do
  let v ← source s
  destination v s

/-- R80: `wr(d, v)`. -/
def movRI (d v : Word) : Primitive := move (regDestination d) (immSource v)
/-- R81: `v <- rd(s); wr(d, v)`. -/
def movRR (d s : Word) : Primitive := move (regDestination d) (regSource s)
/-- R82: `a <- rd(s); v <- GRead(a); wr(d, v)`. -/
def movRM (d s : Word) : Primitive := move (regDestination d) (memSource s)
/-- R83: `GWrite(a, v)`. -/
def movAI (a v : Word) : Primitive := move (absDestination a) (immSource v)
/-- R84: `v <- rd(s); GWrite(a, v)`. -/
def movAR (a s : Word) : Primitive := move (absDestination a) (regSource s)
/-- R85: `p <- rd(s); v <- GRead(p); GWrite(a, v)`. -/
def movAM (a s : Word) : Primitive := move (absDestination a) (memSource s)
/-- R86: `a <- rd(d); GWrite(a, v)`. -/
def movMI (d v : Word) : Primitive := move (memDestination d) (immSource v)
/-- R87: `v <- rd(s); a <- rd(d); GWrite(a, v)`. -/
def movMR (d s : Word) : Primitive := move (memDestination d) (regSource s)
/-- R88: `p <- rd(s); v <- GRead(p); a <- rd(d); GWrite(a, v)`. -/
def movMM (d s : Word) : Primitive := move (memDestination d) (memSource s)

/-- R80 MOV.RI. -/
def execMovRI (d v : Word) (s : State) : Host.Outcome State Fault Refusal := finish (movRI d v) s
/-- R81 MOV.RR. -/
def execMovRR (d r : Word) (s : State) : Host.Outcome State Fault Refusal := finish (movRR d r) s
/-- R82 MOV.RM. -/
def execMovRM (d r : Word) (s : State) : Host.Outcome State Fault Refusal := finish (movRM d r) s
/-- R83 MOV.AI. -/
def execMovAI (a v : Word) (s : State) : Host.Outcome State Fault Refusal := finish (movAI a v) s
/-- R84 MOV.AR. -/
def execMovAR (a r : Word) (s : State) : Host.Outcome State Fault Refusal := finish (movAR a r) s
/-- R85 MOV.AM. -/
def execMovAM (a r : Word) (s : State) : Host.Outcome State Fault Refusal := finish (movAM a r) s
/-- R86 MOV.MI. -/
def execMovMI (d v : Word) (s : State) : Host.Outcome State Fault Refusal := finish (movMI d v) s
/-- R87 MOV.MR. -/
def execMovMR (d r : Word) (s : State) : Host.Outcome State Fault Refusal := finish (movMR d r) s
/-- R88 MOV.MM. -/
def execMovMM (d r : Word) (s : State) : Host.Outcome State Fault Refusal := finish (movMM d r) s

end Sys2Proof.Machine
end

