-- ==== Sys2Proof/Machine/Stack.lean ====
section
/-!
DEFINITION. The stack family (43_stack.md rules R100 to R104): PUSH and POP as two micro-ops of the primitive
move and add/sub opcodes on register 1 (SP), with no second fetch (the choice of opcodes: D20, log entry 25).
-/
namespace Sys2Proof.Machine

/-- R101 PUSH.I: `exec(MOV.MI, 1, v, 0); exec(ADD.RI, 1, 1, 0)`. -/
def execPushI (v : Word) (s : State) : Host.Outcome State Fault Refusal :=
  sequenceMicroOps (movMI 1 v) (addRI 1 1) s

/-- R102 PUSH.R: `exec(MOV.MR, 1, s, 0); exec(ADD.RI, 1, 1, 0)`. -/
def execPushR (r : Word) (s : State) : Host.Outcome State Fault Refusal :=
  sequenceMicroOps (movMR 1 r) (addRI 1 1) s

/-- R103 POP.R: `exec(SUB.RI, 1, 1, 0); exec(MOV.RM, d, 1, 0)`. -/
def execPopR (d : Word) (s : State) : Host.Outcome State Fault Refusal :=
  sequenceMicroOps (subRI 1 1) (movRM d 1) s

end Sys2Proof.Machine
end

