-- ==== Sys2Proof/Syntax.lean ====
section
/-!
DEFINITION. The instructions of the rm ISA, one constructor per row of spec/opcode_table.json
(30_encoding.md rules R53, R54, R57). An operand is the raw Word of its field: a register index is
checked when the register is accessed, not at decode (R12, R59), so an index above 7 is a possible
operand of every Reg and [Reg] field. Unused fields are not part of an instruction (R55).
-/
namespace Sys2Proof

inductive Instr where
  /-- R80 MOV.RI: operand1 = Reg d, operand2 = Imm v; `d <- v`. -/
  | movRI (d v : Word)
  /-- R81 MOV.RR: operand1 = Reg d, operand2 = Reg s; `d <- s`. -/
  | movRR (d s : Word)
  /-- R82 MOV.RM: operand1 = Reg d, operand2 = [Reg] s; `d <- mem[s] (guarded read)`. -/
  | movRM (d s : Word)
  /-- R83 MOV.AI: operand1 = [Abs] a, operand2 = Imm v; `mem[a] <- v (guarded write)`. -/
  | movAI (a v : Word)
  /-- R84 MOV.AR: operand1 = [Abs] a, operand2 = Reg s; `mem[a] <- s (guarded write)`. -/
  | movAR (a s : Word)
  /-- R85 MOV.AM: operand1 = [Abs] a, operand2 = [Reg] s; `mem[a] <- mem[s] (guarded read, guarded write)`. -/
  | movAM (a s : Word)
  /-- R86 MOV.MI: operand1 = [Reg] d, operand2 = Imm v; `mem[d] <- v (guarded write)`. -/
  | movMI (d v : Word)
  /-- R87 MOV.MR: operand1 = [Reg] d, operand2 = Reg s; `mem[d] <- s (guarded write)`. -/
  | movMR (d s : Word)
  /-- R88 MOV.MM: operand1 = [Reg] d, operand2 = [Reg] s; `mem[d] <- mem[s] (guarded read, guarded write)`. -/
  | movMM (d s : Word)
  /-- R90 ADD.RI: operand1 = Reg d, operand2 = Imm v; `d <- d +8 v`. -/
  | addRI (d v : Word)
  /-- R91 ADD.RR: operand1 = Reg d, operand2 = Reg s; `d <- d +8 s`. -/
  | addRR (d s : Word)
  /-- R92 SUB.RI: operand1 = Reg d, operand2 = Imm v; `d <- d -8 v`. -/
  | subRI (d v : Word)
  /-- R93 SUB.RR: operand1 = Reg d, operand2 = Reg s; `d <- d -8 s`. -/
  | subRR (d s : Word)
  /-- R94 MUL.RI: operand1 = Reg d, operand2 = Imm v; `d <- d *8 v`. -/
  | mulRI (d v : Word)
  /-- R95 MUL.RR: operand1 = Reg d, operand2 = Reg s; `d <- d *8 s`. -/
  | mulRR (d s : Word)
  /-- R96 DIV.RI: operand1 = Reg d, operand2 = Imm v; `d <- d /8 v; ArithmeticFault if v = 0`. -/
  | divRI (d v : Word)
  /-- R97 DIV.RR: operand1 = Reg d, operand2 = Reg s; `d <- d /8 s; ArithmeticFault if s = 0`. -/
  | divRR (d s : Word)
  /-- R101 PUSH.I: operand1 = Imm v; `mem[SP] <- v; SP <- SP +8 1`. -/
  | pushI (v : Word)
  /-- R102 PUSH.R: operand1 = Reg s; `mem[SP] <- s; SP <- SP +8 1`. -/
  | pushR (s : Word)
  /-- R103 POP.R: operand1 = Reg d; `SP <- SP -8 1; d <- mem[SP]`. -/
  | popR (d : Word)
  /-- R110 JMPR.I: operand1 = Imm k; `IP <- IP -8 k`. -/
  | jmprI (k : Word)
  /-- R111 JMPR.R: operand1 = Reg r; `IP <- IP -8 r`. -/
  | jmprR (r : Word)
  /-- R112 JMPA.I: operand1 = Imm t; `IP <- t`. -/
  | jmpaI (t : Word)
  /-- R113 JMPA.R: operand1 = Reg r; `IP <- r`. -/
  | jmpaR (r : Word)
  /-- R116 CMP.RR: operand1 = Reg a, operand2 = Reg b; `eq <- a = b; lt <- a < b (unsigned)`. -/
  | cmpRR (a b : Word)
  /-- R117 CMP.RI: operand1 = Reg a, operand2 = Imm v; `eq <- a = v; lt <- a < v (unsigned)`. -/
  | cmpRI (a v : Word)
  /-- R120 JER.I: operand1 = Imm k; `if eq: IP <- IP -8 k`. -/
  | jerI (k : Word)
  /-- R121 JER.R: operand1 = Reg r; `if eq: IP <- IP -8 r`. -/
  | jerR (r : Word)
  /-- R122 JEA.I: operand1 = Imm t; `if eq: IP <- t`. -/
  | jeaI (t : Word)
  /-- R123 JEA.R: operand1 = Reg r; `if eq: IP <- r`. -/
  | jeaR (r : Word)
deriving DecidableEq, Repr

end Sys2Proof
end

