-- ==== Sys2Proof/Machine/Dispatch.lean ====
section
/-!
DEFINITION. Dispatch (40_fetch_decode.md rule R76): one arm per instruction. The state it is given is the one the
fetch left (IP already lowered by 4).
-/
namespace Sys2Proof.Machine

def exec (i : Instr) (s : State) : Host.Outcome State Fault Refusal :=
  match i with
  -- move (41_move.md)
  | .movRI d v => Sys2Proof.Machine.execMovRI d v s
  | .movRR d r => Sys2Proof.Machine.execMovRR d r s
  | .movRM d r => Sys2Proof.Machine.execMovRM d r s
  | .movAI a v => Sys2Proof.Machine.execMovAI a v s
  | .movAR a r => Sys2Proof.Machine.execMovAR a r s
  | .movAM a r => Sys2Proof.Machine.execMovAM a r s
  | .movMI d v => Sys2Proof.Machine.execMovMI d v s
  | .movMR d r => Sys2Proof.Machine.execMovMR d r s
  | .movMM d r => Sys2Proof.Machine.execMovMM d r s
  -- arithmetic (42_arithmetic.md)
  | .addRI d v => Sys2Proof.Machine.execAddRI d v s
  | .addRR d r => Sys2Proof.Machine.execAddRR d r s
  | .subRI d v => Sys2Proof.Machine.execSubRI d v s
  | .subRR d r => Sys2Proof.Machine.execSubRR d r s
  | .mulRI d v => Sys2Proof.Machine.execMulRI d v s
  | .mulRR d r => Sys2Proof.Machine.execMulRR d r s
  | .divRI d v => Sys2Proof.Machine.execDivRI d v s
  | .divRR d r => Sys2Proof.Machine.execDivRR d r s
  -- stack (43_stack.md)
  | .pushI v => Sys2Proof.Machine.execPushI v s
  | .pushR r => Sys2Proof.Machine.execPushR r s
  | .popR d => Sys2Proof.Machine.execPopR d s
  -- jumps (44_jump.md)
  | .jmprI k => Sys2Proof.Machine.execJmprI k s
  | .jmprR r => Sys2Proof.Machine.execJmprR r s
  | .jmpaI t => Sys2Proof.Machine.execJmpaI t s
  | .jmpaR r => Sys2Proof.Machine.execJmpaR r s
  -- compare (45_compare.md)
  | .cmpRR a b => Sys2Proof.Machine.execCmpRR a b s
  | .cmpRI a v => Sys2Proof.Machine.execCmpRI a v s
  -- conditional jumps (46_condjump.md)
  | .jerI k => Sys2Proof.Machine.execJerI k s
  | .jerR r => Sys2Proof.Machine.execJerR r s
  | .jeaI t => Sys2Proof.Machine.execJeaI t s
  | .jeaR r => Sys2Proof.Machine.execJeaR r s

end Sys2Proof.Machine
end

