-- ==== Sys2Proof/Decode.lean ====
section
/-!
DEFINITION. Decoding and encoding of one instruction (30_encoding.md rules R50 to R59), for any
`OpcodeMap`, and for the default one. Where the four bytes lie in memory and in which order they are
read is the fetch's business (Machine/Fetch.lean) and the loader's (Machine/Transactions.lean).
-/
namespace Sys2Proof

/-- The list `Mnemonic.all` leaves no mnemonic out. -/
theorem Mnemonic.mem_all (k : Mnemonic) : k ∈ Mnemonic.all := by
  cases k <;> decide

/-- R57: the spec's default value of each opcode. DESIGN CHOICE, unsafe: the source gives no value
(92_eei_decisions.md D1, log entry 1). -/
def defaultOpcode : Mnemonic → Word
  | .movRI => 0x00
  | .movRR => 0x01
  | .movRM => 0x02
  | .movAI => 0x03
  | .movAR => 0x04
  | .movAM => 0x05
  | .movMI => 0x06
  | .movMR => 0x07
  | .movMM => 0x08
  | .addRI => 0x09
  | .addRR => 0x0A
  | .subRI => 0x0B
  | .subRR => 0x0C
  | .mulRI => 0x0D
  | .mulRR => 0x0E
  | .divRI => 0x0F
  | .divRR => 0x10
  | .pushI => 0x11
  | .pushR => 0x12
  | .popR => 0x13
  | .jmprI => 0x14
  | .jmprR => 0x15
  | .jmpaI => 0x16
  | .jmpaR => 0x17
  | .cmpRR => 0x18
  | .cmpRI => 0x19
  | .jerI => 0x1A
  | .jerR => 0x1B
  | .jeaI => 0x1C
  | .jeaR => 0x1D

/-- No two mnemonics share a value. -/
theorem defaultOpcode_injective (j k : Mnemonic) (h : defaultOpcode j = defaultOpcode k) : j = k :=
  List.inj_on_of_nodup_map (f := defaultOpcode) (l := Mnemonic.all) (by decide) j.mem_all k.mem_all h

/-- The `OPCODE_MAP` that `decode`, `encode` and `step` use: the spec's default (R57, D1, log entry 1).
`decodeWith`, `encodeWith` and `stepWith` take any map. -/
def defaultOpcodeMap : OpcodeMap := ⟨defaultOpcode, defaultOpcode_injective⟩

/-- R50: "a fixed 4-Word record {operation, operand1, operand2, operand3}", raw. -/
structure Record where
  operation : Word
  operand1 : Word
  operand2 : Word
  operand3 : Word
deriving DecidableEq, Repr

/-- R52: `toBytes(I) = [I.operation, I.operand1, I.operand2, I.operand3]`, lowest address first (R51). -/
def Record.toBytes (r : Record) : List Word := [r.operation, r.operand1, r.operand2, r.operand3]

/-- R52: the inverse of `toBytes`; only four bytes are a record (R50). -/
def Record.fromBytes : List Word → Option Record
  | [op, o1, o2, o3] => some ⟨op, o1, o2, o3⟩
  | _ => none

/-- Why bytes spell no instruction. -/
inductive DecodeError where
  /-- R58: the operation byte is in the image of no mnemonic. Dispatch raises InvalidOpcode for it (R134). -/
  | invalidOpcode (operation : Word)
  /-- R50: an instruction is exactly 4 bytes. The machine never meets it: its fetch always reads 4. -/
  | notFourBytes (length : Nat)
deriving DecidableEq, Repr

/-- R76: look an operation byte up through `OPCODE_MAP`. -/
def Mnemonic.ofOperation (m : OpcodeMap) (operation : Word) : Option Mnemonic :=
  Mnemonic.all.find? (fun k => m.value k == operation)

/-- R54: the instruction a mnemonic makes of operand1 and operand2 (operand2 unused by the one-operand
opcodes, R55). -/
def Mnemonic.withOperands : Mnemonic → Word → Word → Instr
  | .movRI, o1, o2 => .movRI o1 o2
  | .movRR, o1, o2 => .movRR o1 o2
  | .movRM, o1, o2 => .movRM o1 o2
  | .movAI, o1, o2 => .movAI o1 o2
  | .movAR, o1, o2 => .movAR o1 o2
  | .movAM, o1, o2 => .movAM o1 o2
  | .movMI, o1, o2 => .movMI o1 o2
  | .movMR, o1, o2 => .movMR o1 o2
  | .movMM, o1, o2 => .movMM o1 o2
  | .addRI, o1, o2 => .addRI o1 o2
  | .addRR, o1, o2 => .addRR o1 o2
  | .subRI, o1, o2 => .subRI o1 o2
  | .subRR, o1, o2 => .subRR o1 o2
  | .mulRI, o1, o2 => .mulRI o1 o2
  | .mulRR, o1, o2 => .mulRR o1 o2
  | .divRI, o1, o2 => .divRI o1 o2
  | .divRR, o1, o2 => .divRR o1 o2
  | .pushI, o1, _ => .pushI o1
  | .pushR, o1, _ => .pushR o1
  | .popR, o1, _ => .popR o1
  | .jmprI, o1, _ => .jmprI o1
  | .jmprR, o1, _ => .jmprR o1
  | .jmpaI, o1, _ => .jmpaI o1
  | .jmpaR, o1, _ => .jmpaR o1
  | .cmpRR, o1, o2 => .cmpRR o1 o2
  | .cmpRI, o1, o2 => .cmpRI o1 o2
  | .jerI, o1, _ => .jerI o1
  | .jerR, o1, _ => .jerR o1
  | .jeaI, o1, _ => .jeaI o1
  | .jeaR, o1, _ => .jeaR o1

/-- The mnemonic an instruction belongs to. -/
def Instr.mnemonic : Instr → Mnemonic
  | .movRI _ _ => .movRI
  | .movRR _ _ => .movRR
  | .movRM _ _ => .movRM
  | .movAI _ _ => .movAI
  | .movAR _ _ => .movAR
  | .movAM _ _ => .movAM
  | .movMI _ _ => .movMI
  | .movMR _ _ => .movMR
  | .movMM _ _ => .movMM
  | .addRI _ _ => .addRI
  | .addRR _ _ => .addRR
  | .subRI _ _ => .subRI
  | .subRR _ _ => .subRR
  | .mulRI _ _ => .mulRI
  | .mulRR _ _ => .mulRR
  | .divRI _ _ => .divRI
  | .divRR _ _ => .divRR
  | .pushI _ => .pushI
  | .pushR _ => .pushR
  | .popR _ => .popR
  | .jmprI _ => .jmprI
  | .jmprR _ => .jmprR
  | .jmpaI _ => .jmpaI
  | .jmpaR _ => .jmpaR
  | .cmpRR _ _ => .cmpRR
  | .cmpRI _ _ => .cmpRI
  | .jerI _ => .jerI
  | .jerR _ => .jerR
  | .jeaI _ => .jeaI
  | .jeaR _ => .jeaR

/-- R59: "any 4 bytes decode either to one of the 30 instructions (with any operand bytes whatever) or to
InvalidOpcode". operand3 is never looked at (R55, R76). -/
def decodeWith (m : OpcodeMap) (r : Record) : Except DecodeError Instr :=
  match Mnemonic.ofOperation m r.operation with
  | some k => .ok (k.withOperands r.operand1 r.operand2)
  | none => .error (.invalidOpcode r.operation)

/-- Decoding under the default map (R57). -/
def decode (r : Record) : Except DecodeError Instr := decodeWith defaultOpcodeMap r

/-- Decoding of any byte string, lowest address first. -/
def decodeBytes (bytes : List Word) : Except DecodeError Instr :=
  match Record.fromBytes bytes with
  | some r => decode r
  | none => .error (.notFourBytes bytes.length)

/-- R61: `[OPCODE_MAP(mnemonic), operand1, operand2, 0]`, with 0 for each absent operand. -/
def encodeWith (m : OpcodeMap) : Instr → Record
  | .movRI d v => ⟨m.value .movRI, d, v, 0⟩
  | .movRR d s => ⟨m.value .movRR, d, s, 0⟩
  | .movRM d s => ⟨m.value .movRM, d, s, 0⟩
  | .movAI a v => ⟨m.value .movAI, a, v, 0⟩
  | .movAR a s => ⟨m.value .movAR, a, s, 0⟩
  | .movAM a s => ⟨m.value .movAM, a, s, 0⟩
  | .movMI d v => ⟨m.value .movMI, d, v, 0⟩
  | .movMR d s => ⟨m.value .movMR, d, s, 0⟩
  | .movMM d s => ⟨m.value .movMM, d, s, 0⟩
  | .addRI d v => ⟨m.value .addRI, d, v, 0⟩
  | .addRR d s => ⟨m.value .addRR, d, s, 0⟩
  | .subRI d v => ⟨m.value .subRI, d, v, 0⟩
  | .subRR d s => ⟨m.value .subRR, d, s, 0⟩
  | .mulRI d v => ⟨m.value .mulRI, d, v, 0⟩
  | .mulRR d s => ⟨m.value .mulRR, d, s, 0⟩
  | .divRI d v => ⟨m.value .divRI, d, v, 0⟩
  | .divRR d s => ⟨m.value .divRR, d, s, 0⟩
  | .pushI v => ⟨m.value .pushI, v, 0, 0⟩
  | .pushR s => ⟨m.value .pushR, s, 0, 0⟩
  | .popR d => ⟨m.value .popR, d, 0, 0⟩
  | .jmprI k => ⟨m.value .jmprI, k, 0, 0⟩
  | .jmprR r => ⟨m.value .jmprR, r, 0, 0⟩
  | .jmpaI t => ⟨m.value .jmpaI, t, 0, 0⟩
  | .jmpaR r => ⟨m.value .jmpaR, r, 0, 0⟩
  | .cmpRR a b => ⟨m.value .cmpRR, a, b, 0⟩
  | .cmpRI a v => ⟨m.value .cmpRI, a, v, 0⟩
  | .jerI k => ⟨m.value .jerI, k, 0, 0⟩
  | .jerR r => ⟨m.value .jerR, r, 0, 0⟩
  | .jeaI t => ⟨m.value .jeaI, t, 0, 0⟩
  | .jeaR r => ⟨m.value .jeaR, r, 0, 0⟩

/-- Encoding under the default map (R57). -/
def encode (i : Instr) : Record := encodeWith defaultOpcodeMap i

/-- R52: the record whose 32-bit view is `w`: `W = operation ‖ operand1 ‖ operand2 ‖ operand3`. Only the low
`nbits` bits of `w` count; the rest of the instruction is 0 (log entry 21). -/
def Record.ofTableWord (nbits w : Nat) : Record :=
  let v := BitVec.ofNat 32 (w % 2 ^ nbits)
  ⟨v.extractLsb' 24 8, v.extractLsb' 16 8, v.extractLsb' 8 8, v.extractLsb' 0 8⟩

/-- The instruction the decoder reads from the 32-bit view `w` of spec/opcode_table.json (R52). -/
def decodeTableWord (nbits w : Nat) : Option Instr :=
  match decodeBytes (Record.ofTableWord nbits w).toBytes with
  | .ok i => some i
  | .error _ => none

end Sys2Proof
end

