-- ==== Sys2Proof/Machine/Fetch.lean ====
section
/-!
DEFINITION. The fetch (40_fetch_decode.md rule R72): four unguarded reads from IP downwards, IP lowered by 1
after each through the raw port. It cannot fault.
-/
namespace Sys2Proof.Machine

/-- One read of the fetch: the cell at IP, and the state with IP one lower (modulo 256). -/
def fetchCell (s : State) : Word × State :=
  (s.cell (s.reg .ip), s.setReg .ip (s.reg .ip - 1))

/-- R72: operand3 first, operation last. -/
def fetch (s : State) : Record × State :=
  let (o3, s1) := fetchCell s
  let (o2, s2) := fetchCell s1
  let (o1, s3) := fetchCell s2
  let (op, s4) := fetchCell s3
  (⟨op, o1, o2, o3⟩, s4)

end Sys2Proof.Machine
end

