-- ==== Sys2Proof/Machine/Engine.lean ====
section
/-!
DEFINITION. The engine (40_fetch_decode.md rules R70, R71, R76): one step of the run loop for any `OPCODE_MAP`.
-/
namespace Sys2Proof.Machine

/-- R76: select the instruction by its operation byte and run it; "if op is not the value of any mnemonic, raise
InvalidOpcode", before any operand is looked at (R134; log entry 13). -/
def dispatch (m : OpcodeMap) (r : Record) (s : State) : Host.Outcome State Fault Refusal :=
  match decodeWith m r with
  | .ok i => exec i s
  | .error _ => .next (s.takeFault .invalidOpcode)

/-- R70: fetch, then dispatch. -/
def fetchAndDispatch (m : OpcodeMap) (s : State) : Host.Outcome State Fault Refusal :=
  dispatch m (fetch s).1 (fetch s).2

/-- R70, R160: one iteration of `while status = Running do step`. "When status is Halted or Faulted there is no
step: the machine does nothing until the host acts", so the state stays as it is (R140, D19, D24; log entry 5). -/
def stepWith (m : OpcodeMap) (s : State) : Host.Outcome State Fault Refusal :=
  match s.status with
  | .running => fetchAndDispatch m s
  | .halted => .next s
  | .faulted => .next s

end Sys2Proof.Machine
end

