-- ==== Sys2Proof/Machine/Step.lean ====
section
/-!
DEFINITION. The machine's step, under the spec's default `OPCODE_MAP`, and the placing of one instruction where the
step fetches it.
-/
namespace Sys2Proof.Machine

/-- One step (R70) under the default `OPCODE_MAP` (R57, log entry 1). -/
def step (s : State) : Host.Outcome State Fault Refusal := stepWith defaultOpcodeMap s

/-- R31, R51: a record stored in the four cells that end at an entry address, unguarded. -/
def State.placeBlock (s : State) (entry : Word) (r : Record) : State :=
  (((s.setCell (entry - 3) r.operation).setCell (entry - 2) r.operand1).setCell (entry - 1) r.operand2).setCell
    entry r.operand3

/-- R22, R34: a state whose next step fetches: the latch empty, and IP on the entry address of a one-instruction
program (3) where it was 0. A Running state is left as it is. -/
def State.makeRunning (s : State) : State :=
  let t := { s with fault := none }
  if t.reg .ip = 0 then t.setReg .ip 3 else t

/-- The state with the instruction of 32-bit view `w` (R52) stored where the next step fetches it. It stands for the
Load that places a program (log entry 6). -/
def State.withFetchWord (s : State) (nbits w : Nat) : State :=
  s.makeRunning.placeBlock (s.makeRunning.reg .ip) (Record.ofTableWord nbits w)

end Sys2Proof.Machine
end

