-- ==== Sys2Proof/Machine/Transactions.lean ====
section
/-!
DEFINITION. The host's transactions (70_reset_and_hazards.md rules R150 to R162): Reset, Load, Execute, Step,
Inspect, each atomic with respect to the core (R162).
-/
namespace Sys2Proof.Machine

/-! ## The host's side of the machine -/

/-- The machine together with what the host knows of it. "Nothing else is state" of the machine (10_state.md), so
whether the one Load of R151 was applied since the last Reset stands beside it, not in it (log entry 8). -/
structure Session where
  /-- The machine. -/
  machine : State
  /-- R151 "applied once": a Load was applied since the last Reset. -/
  loaded : Bool
deriving DecidableEq, Repr

/-- R24, R150: the machine as created, nothing loaded yet. -/
def Session.start : Session := ⟨State.reset, false⟩

/-- What the machine's own work makes of a session: the machine's new state, the host's knowledge as it was. -/
def Session.after (x : Session) (o : Host.Outcome State Fault Refusal) : Host.Outcome Session Fault Refusal :=
  match o with
  | .next t => .next { x with machine := t }
  | .fault k => .fault k
  | .refused k => .refused k

/-! ## Reset and Load -/

/-- R150: Reset, at any time, restores the creation state, fault latch included (D18, log entry 24), and a Load may be
applied again. -/
def resetMachine (_ : Session) : Session := Session.start

/-- R152: the loader's primitive: four unguarded writes from IP upwards in field order, then IP raised by 4. -/
def encodeAt (s : State) (r : Record) : State :=
  let b := s.reg .ip
  let t := (((s.setCell b r.operation).setCell (b + 1) r.operand1).setCell (b + 2) r.operand2).setCell
    (b + 3) r.operand3
  t.setReg .ip (b + 4)

/-- R153: the sequence encoded last instruction first from address 0, then SP and SB set to IP, then IP lowered by
1; R154: for the empty sequence IP is set to 0 and nothing else happens. -/
def loadInto (program : List Record) (s : State) : State :=
  match program with
  | [] => s.setReg .ip 0
  | first :: rest =>
    let t := (first :: rest).reverse.foldl encodeAt (s.setReg .ip 0)
    let u := (t.setReg .sp (t.reg .ip)).setReg .sb (t.reg .ip)
    u.setReg .ip (u.reg .ip - 1)

/-- R151: Load, "defined on a machine in the Reset state" and "applied once", for at most `maxProgram` instructions;
refused otherwise (D12, D22; log entries 3, 8). It validates nothing else: any four Words are stored (D25; log
entry 26). -/
def loadWith (maxProgram : Nat) (program : List Record) (x : Session) : Host.Outcome Session Fault Refusal :=
  if x.loaded = true then .refused .loadTwice
  else if x.machine ≠ State.reset then .refused .loadOutsideReset
  else if maxProgram < program.length then .refused .loadTooLong
  else .next ⟨loadInto program x.machine, true⟩

/-- R3, R151: the default `MAX_PROGRAM` (D22, log entry 3). -/
def defaultMaxProgram : Nat := 63

/-- Load with the default `MAX_PROGRAM`. -/
def load (program : List Record) (x : Session) : Host.Outcome Session Fault Refusal :=
  loadWith defaultMaxProgram program x

/-! ## Execute -/

/-- R160: Execute, `while status = Running do step`, under fuel ("an executable model runs it under fuel"). With
the fuel spent and the machine still Running the answer is a fault, never a final state (log entry 9). -/
def executeWith (m : OpcodeMap) : Nat → State → Host.Outcome State Fault Refusal
  | 0, s =>
    match s.status with
    | .running => .fault .executeDidNotReturn
    | .halted => .next s
    | .faulted => .next s
  | fuel + 1, s =>
    match s.status with
    | .running =>
      match stepWith m s with
      | .next t => executeWith m fuel t
      | .fault k => .fault k
      | .refused k => .refused k
    | .halted => .next s
    | .faulted => .next s

/-- Execute under the default `OPCODE_MAP`. -/
def execute (fuel : Nat) (s : State) : Host.Outcome State Fault Refusal := executeWith defaultOpcodeMap fuel s

/-! ## Inspect -/

/-- R161: the stack window, the cells `mem[a]` for `SB ≤ a < SP`, lowest address first, "empty when SP ≤ SB"
(half open: D14, log entry 23). -/
def stackWindow (s : State) : List (Word × Word) :=
  (List.range ((s.reg .sp).toNat - (s.reg .sb).toNat)).map
    (fun k => (s.reg .sb + BitVec.ofNat 8 k, s.cell (s.reg .sb + BitVec.ofNat 8 k)))

/-- R161: what Inspect shows besides single cells: the 8 named registers, the stack window, the status, the fault
kind, and the kind's number (R130). -/
structure Inspection where
  registers : Registers
  window : List (Word × Word)
  status : Status
  fault : Option FaultKind
  faultCode : Nat
deriving DecidableEq, Repr

/-- R161: Inspect, for any `FAULT_CODE`. It reads through the raw and unguarded ports and changes no state. -/
def inspectWith (code : FaultCode) (s : State) : Inspection :=
  ⟨s.regs, stackWindow s, s.status, s.fault, code s.fault⟩

/-- Inspect with the default `FAULT_CODE` (D9, log entry 2). -/
def inspect (s : State) : Inspection := inspectWith defaultFaultCode s

/-- R161: Inspect of any memory cell, through the unguarded port. -/
def inspectCell (s : State) (a : Word) : Word := s.cell a

/-! ## The transactions as one -/

/-- R3: the defaults of the three parameters. -/
def defaultParameters : Parameters := ⟨defaultOpcodeMap, defaultFaultCode, defaultMaxProgram⟩

/-- R25, R150 to R162: the host's transactions. -/
inductive Transaction where
  | reset
  | load (program : List Record)
  | execute (fuel : Nat)
  | step
  | inspect
deriving DecidableEq, Repr

/-- R162: what each transaction does to a session, for any parameters; it runs to completion before the next begins.
What Inspect shows is `observeWith`. -/
def transactWith (p : Parameters) (tr : Transaction) (x : Session) : Host.Outcome Session Fault Refusal :=
  match tr with
  | .reset => .next (resetMachine x)
  | .load program => loadWith p.maxProgram program x
  | .execute fuel => x.after (executeWith p.opcodeMap fuel x.machine)
  | .step => x.after (stepWith p.opcodeMap x.machine)
  | .inspect => .next x

/-- R161: what a transaction shows the host: Inspect the inspection, under the parameters' `FAULT_CODE`; the others
nothing (Execute has "no return value besides the final machine state", R160). -/
def observeWith (p : Parameters) (tr : Transaction) (x : Session) : Option Inspection :=
  match tr with
  | .inspect => some (inspectWith p.faultCode x.machine)
  | .reset => none
  | .load _ => none
  | .execute _ => none
  | .step => none

end Sys2Proof.Machine
end

