-- ==== Sys2Proof/WellFormed.lean ====
section
/-!
DEFINITION. What makes an instruction well formed: every Reg and [Reg] operand field names one of the
8 registers (10_state.md rules R10, R12; 30_encoding.md rule R53). The machine runs ill-formed
instructions too (they raise InvalidRegister where the field is used, R59, R74); the predicate only
says which instructions an assembler may emit.
-/
namespace Sys2Proof

/-- R53: a field value that selects one of the 8 registers. -/
def isRegisterIndex (i : Word) : Bool := decide (i ≤ 7)

/-- R54, R57: the operand bytes an instruction uses as register indices (its Reg and [Reg] fields). -/
def Instr.registerFields : Instr → List Word
  | .movRI d _ => [d]
  | .movRR d s => [d, s]
  | .movRM d s => [d, s]
  | .movAI _ _ => []
  | .movAR _ s => [s]
  | .movAM _ s => [s]
  | .movMI d _ => [d]
  | .movMR d s => [d, s]
  | .movMM d s => [d, s]
  | .addRI d _ => [d]
  | .addRR d s => [d, s]
  | .subRI d _ => [d]
  | .subRR d s => [d, s]
  | .mulRI d _ => [d]
  | .mulRR d s => [d, s]
  | .divRI d _ => [d]
  | .divRR d s => [d, s]
  | .pushI _ => []
  | .pushR s => [s]
  | .popR d => [d]
  | .jmprI _ => []
  | .jmprR r => [r]
  | .jmpaI _ => []
  | .jmpaR r => [r]
  | .cmpRR a b => [a, b]
  | .cmpRI a _ => [a]
  | .jerI _ => []
  | .jerR r => [r]
  | .jeaI _ => []
  | .jeaR r => [r]

/-- Every register field names a register. -/
def Instr.wellFormed (i : Instr) : Bool := i.registerFields.all isRegisterIndex

end Sys2Proof
end

