-- ==== Sys2Proof/Safety.lean ====
section
/-!
DEFINITION. The terms claims about the machine are stated in: what a step may change (frames), which register and
which cell an instruction may write, which instructions raise which fault, and the invariants.
-/
namespace Sys2Proof.Machine

/-! ## What happened between two states -/

/-- Nothing but register `r` changed, and `r` now holds `v`. -/
def OnlyRegister (r : Reg) (v : Word) (s t : State) : Prop :=
  t.reg r = v ∧ (∀ q, q ≠ r → t.reg q = s.reg q) ∧ (∀ a, t.cell a = s.cell a) ∧ t.fault = s.fault

/-- Nothing but the cell at `a` changed, and it now holds `v`. -/
def OnlyCell (a v : Word) (s t : State) : Prop :=
  t.cell a = v ∧ (∀ b, b ≠ a → t.cell b = s.cell b) ∧ (∀ q, t.reg q = s.reg q) ∧ t.fault = s.fault

/-- Nothing but the fault latch changed, and it now holds kind `k` (R138). -/
def OnlyFault (k : FaultKind) (s t : State) : Prop :=
  t.fault = some k ∧ (∀ q, t.reg q = s.reg q) ∧ (∀ a, t.cell a = s.cell a)

/-! ## What an instruction may write, by the rules of its family -/

/-- The registers the rules let an instruction write: its Reg destination, IP for a jump, F for a compare, SP for
PUSH and POP (10_state.md rule R10, R16; 41_move.md to 46_condjump.md). -/
def writtenRegisters : Instr → List Reg
  | .movRI d _ | .movRR d _ | .movRM d _ => (Reg.ofIndex d).toList
  | .movAI _ _ | .movAR _ _ | .movAM _ _ | .movMI _ _ | .movMR _ _ | .movMM _ _ => []
  | .addRI d _ | .addRR d _ | .subRI d _ | .subRR d _ => (Reg.ofIndex d).toList
  | .mulRI d _ | .mulRR d _ | .divRI d _ | .divRR d _ => (Reg.ofIndex d).toList
  | .pushI _ | .pushR _ => [.sp]
  | .popR d => .sp :: (Reg.ofIndex d).toList
  | .jmprI _ | .jmprR _ | .jmpaI _ | .jmpaR _ => [.ip]
  | .cmpRR _ _ | .cmpRI _ _ => [.f]
  | .jerI _ | .jerR _ | .jeaI _ | .jeaR _ => [.ip]

/-- The address an instruction stores to in a given state: the [Abs] field itself, the value of the [Reg]
destination, SP for PUSH; none for every other instruction (20_memory.md rule R37). -/
def storeAddress (i : Instr) (s : State) : Option Word :=
  match i with
  | .movAI a _ | .movAR a _ | .movAM a _ => some a
  | .movMI d _ | .movMR d _ | .movMM d _ => (Reg.ofIndex d).map s.reg
  | .pushI _ | .pushR _ => some (s.reg .sp)
  | .movRI _ _ | .movRR _ _ | .movRM _ _ => none
  | .addRI _ _ | .addRR _ _ | .subRI _ _ | .subRR _ _ => none
  | .mulRI _ _ | .mulRR _ _ | .divRI _ _ | .divRR _ _ => none
  | .popR _ | .jmprI _ | .jmprR _ | .jmpaI _ | .jmpaR _ => none
  | .cmpRR _ _ | .cmpRI _ _ | .jerI _ | .jerR _ | .jeaI _ | .jeaR _ => none

/-- The value an instruction stores to its `storeAddress`: the Imm field, the value of the Reg source, the cell the
[Reg] source points to; none for an instruction that stores nothing (41_move.md, 43_stack.md). -/
def storedValue (i : Instr) (s : State) : Option Word :=
  match i with
  | .movAI _ v | .movMI _ v | .pushI v => some v
  | .movAR _ r | .movMR _ r | .pushR r => (Reg.ofIndex r).map s.reg
  | .movAM _ r | .movMM _ r => (Reg.ofIndex r).map (fun q => s.cell (s.reg q))
  | .movRI _ _ | .movRR _ _ | .movRM _ _ => none
  | .addRI _ _ | .addRR _ _ | .subRI _ _ | .subRR _ _ => none
  | .mulRI _ _ | .mulRR _ _ | .divRI _ _ | .divRR _ _ => none
  | .popR _ | .jmprI _ | .jmprR _ | .jmpaI _ | .jmpaR _ => none
  | .cmpRR _ _ | .cmpRI _ _ | .jerI _ | .jerR _ | .jeaI _ | .jeaR _ => none

/-- R130, column "Raised by": the instructions that can raise a fault kind. InvalidOpcode is raised by dispatch alone
(R134) and InvalidInstructionPointer by nothing (R135). -/
def raisedBy : FaultKind → List Mnemonic
  | .invalidRegister =>
    [.movRI, .movRR, .movRM, .movAR, .movAM, .movMI, .movMR, .movMM,
     .addRI, .addRR, .subRI, .subRR, .mulRI, .mulRR, .divRI, .divRR,
     .pushR, .popR, .jmprR, .jmpaR, .cmpRR, .cmpRI, .jerR, .jeaR]
  | .memoryGuardViolation =>
    [.movRM, .movAI, .movAR, .movAM, .movMI, .movMR, .movMM, .pushI, .pushR, .popR]
  | .arithmeticFault => [.divRI, .divRR]
  | .invalidInstructionPointer => []
  | .invalidOpcode => []

/-- R54, R57: the mnemonics of one operand, which use operand1 only. -/
def oneOperand : List Mnemonic :=
  [.pushI, .pushR, .popR, .jmprI, .jmprR, .jmpaI, .jmpaR, .jerI, .jerR, .jeaI, .jeaR]

/-! ## Views and invariants -/

/-- Two states that differ at most in cells below the stack base: what a program's memory operands can tell apart
is equal (20_memory.md rules R36, R37). -/
def SameAboveStackBase (s t : State) : Prop :=
  (∀ q, s.reg q = t.reg q) ∧ s.fault = t.fault ∧ ∀ a, s.reg .sb ≤ a → s.cell a = t.cell a

/-- The invariant of every state the machine can be in: the memory is in its canonical form (log entry 20), and the
reserved fault kind is not in the latch (60_exceptions.md rule R135). -/
def MachineInvariant (s : State) : Prop := s.mem.wf ∧ s.fault ≠ some .invalidInstructionPointer

/-- The invariant of every session: the machine's, and R151's "Load is the only boot step": until a Load is applied the
machine is as Reset left it. -/
def SessionInvariant (x : Session) : Prop :=
  MachineInvariant x.machine ∧ (x.loaded = false → x.machine = State.reset)

/-! ## Runs -/

/-- R73: successive fetches with no dispatch between them: the records in the order read, and the state left. -/
def fetchMany : Nat → State → List Record × State
  | 0, s => ([], s)
  | n + 1, s => ((fetch s).1 :: (fetchMany n (fetch s).2).1, (fetchMany n (fetch s).2).2)

/-- R160: a number of Step transactions one after another. -/
def stepsWith (m : OpcodeMap) : Nat → State → Host.Outcome State Fault Refusal
  | 0, s => .next s
  | n + 1, s =>
    match stepWith m s with
    | .next t => stepsWith m n t
    | .fault k => .fault k
    | .refused k => .refused k

end Sys2Proof.Machine
end

