-- ==== Sys2Proof/Certificates/Slice0/Obligations.lean ====
section
/-!
DEFINITION. The statements for the provers. In a statement about `exec` the state `s` is the one the fetch left: its
IP is the instruction's entry address minus 4 (40_fetch_decode.md rules R13, R72). A clause on an encoding carries the
opcode value as a premise (92_eei_decisions.md D1), so it rests on no numbering.
-/
open Sys2Proof Sys2Proof.Machine

/-! ## Reset, status, fetch, step -/

/-- R24, R150 (10_state.md, 70_reset_and_hazards.md): after Reset every register and every cell is 0, the latch is none
(the spec's decision D18, log entry 24), the status is Halted, and no Load has been applied (log entry 8), whatever was
before. -/
def Obligations.ResetZeroesRegistersMemoryAndLatch : Prop :=
  ∀ (p : Parameters) (x : Session), ∃ y, transactWith p .reset x = .next y ∧
    (∀ r, y.machine.reg r = 0) ∧ (∀ a, y.machine.cell a = 0) ∧ y.machine.fault = none ∧
    y.machine.status = .halted ∧ y.loaded = false

/-- R22 (10_state.md): the run status is this function of the latch and IP. -/
def Obligations.StatusIsAFunctionOfLatchAndIp : Prop :=
  ∀ s : State, (s.status = .faulted ↔ s.fault ≠ none) ∧
    (s.status = .halted ↔ s.fault = none ∧ s.reg .ip = 0) ∧
    (s.status = .running ↔ s.fault = none ∧ s.reg .ip ≠ 0)

/-- R72 (40_fetch_decode.md): with `e` the IP before the fetch, the record is read from `e` downwards, operation from
`e -8 3`, and IP becomes `e -8 4`; nothing else changes. -/
def Obligations.FetchReadsFourCellsDownwards : Prop :=
  ∀ s : State,
    (fetch s).1 = ⟨s.cell (s.reg .ip - 3), s.cell (s.reg .ip - 2), s.cell (s.reg .ip - 1), s.cell (s.reg .ip)⟩ ∧
    OnlyRegister .ip (s.reg .ip - 4) s (fetch s).2

/-- R70, R76 (40_fetch_decode.md): when the machine is Running and the four cells that end at IP decode to an instruction,
the step is `exec` of that instruction at the state in which IP alone is lowered by 4. For any map, and for `step`. -/
def Obligations.StepRunsTheDecodedInstruction : Prop :=
  ∀ (m : OpcodeMap) (s : State) (i : Instr), s.status = .running →
    decodeWith m ⟨s.cell (s.reg .ip - 3), s.cell (s.reg .ip - 2), s.cell (s.reg .ip - 1), s.cell (s.reg .ip)⟩ = .ok i →
    ∃ u, OnlyRegister .ip (s.reg .ip - 4) s u ∧ stepWith m s = exec i u ∧
      (m = defaultOpcodeMap → step s = exec i u)

/-- R134 (60_exceptions.md; the spec's decision D3, log entry 13): an operation byte of no mnemonic raises InvalidOpcode
after the fetch and before anything else happens. -/
def Obligations.UndefinedOpcodeRaisesInvalidOpcode : Prop :=
  ∀ (m : OpcodeMap) (s : State), s.status = .running →
    (∀ k, m.value k ≠ s.cell (s.reg .ip - 3)) →
    ∃ t, stepWith m s = .next t ∧ t.fault = some .invalidOpcode ∧ t.reg .ip = s.reg .ip - 4 ∧
      (∀ r, r ≠ .ip → t.reg r = s.reg r) ∧ ∀ a, t.cell a = s.cell a

/-- R70, R140 (D19, D24; log entry 5): a machine that is not Running is left exactly as it is by a Step and by an Execute
of any fuel. -/
def Obligations.HaltedOrFaultedMachineStaysAsItIs : Prop :=
  ∀ (m : OpcodeMap) (s : State) (fuel : Nat), s.status ≠ .running →
    stepWith m s = .next s ∧ executeWith m fuel s = .next s

/-- No instruction and no step ends in the host's outcome `fault` or `refused`: `exec`, for every instruction with any operand
bytes (R59), and the step of every state answer a next state. That a fault of the spec is a next state with the latch set is
log entry 4 (DEDUCED from R138). That the step of a Halted or Faulted machine answers a next state, the same one, is log entry
5 (DEDUCED; D19, D24): R70 itself says there is no step there. -/
def Obligations.EveryInstructionAndStepAnswersANextState : Prop :=
  (∀ (i : Instr) (s : State), ∃ t, exec i s = .next t) ∧
  ∀ (m : OpcodeMap) (s : State), ∃ t, stepWith m s = .next t

/-! ## Encoding -/

/-- R73, R54 (30_encoding.md, 40_fetch_decode.md): under every `OPCODE_MAP`, decoding the encoding of any instruction, with
every operand at any value, gives the instruction back. -/
def Obligations.DecodeOfEncodeIsTheInstruction : Prop :=
  ∀ (m : OpcodeMap) (i : Instr), decodeWith m (encodeWith m i) = .ok i

/-- R55 (D4, log entry 14), R59: what decodes re-encodes to the same bytes but for zeros in the unused fields. -/
def Obligations.EncodeOfDecodeZeroesOnlyUnusedFields : Prop :=
  ∀ (m : OpcodeMap) (r : Record) (i : Instr), decodeWith m r = .ok i →
    encodeWith m i = ⟨r.operation, r.operand1, if i.mnemonic ∈ oneOperand then 0 else r.operand2, 0⟩

/-- R58, R59 (D3): bytes decode exactly when the operation byte is the value of a mnemonic; otherwise the decoder names the
byte. -/
def Obligations.DecoderAcceptsExactlyTheOpcodeMap : Prop :=
  ∀ (m : OpcodeMap) (r : Record),
    ((∃ i, decodeWith m r = .ok i) ↔ ∃ k, m.value k = r.operation) ∧
    ((∀ k, m.value k ≠ r.operation) → decodeWith m r = .error (.invalidOpcode r.operation))

/-- R57 (D1, log entry 1) and the bytes printed in R61, R88, R97, R111, R116, R121: words of each family, under the spec's
default map. -/
def Obligations.PrintedBytesDecodeUnderTheDefaultMap : Prop :=
  decode ⟨0x09, 0x03, 0x0A, 0x00⟩ = .ok (.addRI 3 10) ∧
  decode ⟨0x13, 0x04, 0x00, 0x00⟩ = .ok (.popR 4) ∧
  decode ⟨0x05, 0x14, 0x04, 0x00⟩ = .ok (.movAM 20 4) ∧
  decode ⟨0x08, 0x03, 0x04, 0x00⟩ = .ok (.movMM 3 4) ∧
  decode ⟨0x10, 0x03, 0x04, 0x00⟩ = .ok (.divRR 3 4) ∧
  decode ⟨0x15, 0x03, 0x00, 0x00⟩ = .ok (.jmprR 3) ∧
  decode ⟨0x18, 0x03, 0x04, 0x00⟩ = .ok (.cmpRR 3 4) ∧
  decode ⟨0x1B, 0x03, 0x00, 0x00⟩ = .ok (.jerR 3)

/-! ## The ports and the guard -/

/-- R12, R74: the checked ports. An index 0 to 7 reads or writes the register of that index as a plain Word; an index above
7 raises InvalidRegister. -/
def Obligations.CheckedPortsSelectEightRegisters : Prop :=
  ∀ s : State,
    (∀ r : Reg, s.rd r.index = .ok (s.reg r)) ∧
    (∀ i : Word, 7 < i → s.rd i = .error .invalidRegister) ∧
    (∀ (r : Reg) (v : Word), ∃ t, s.wr r.index v = .ok t ∧ OnlyRegister r v s t) ∧
    (∀ i v : Word, 7 < i → s.wr i v = .error .invalidRegister)

/-- R36 (20_memory.md): the guard compares the address, unsigned, with the value SB holds at that moment. -/
def Obligations.GuardRejectsAddressesBelowStackBase : Prop :=
  ∀ (s : State) (a v : Word),
    (a.toNat < (s.reg .sb).toNat →
      s.gRead a = .error .memoryGuardViolation ∧ s.gWrite a v = .error .memoryGuardViolation) ∧
    ((s.reg .sb).toNat ≤ a.toNat →
      s.gRead a = .ok (s.cell a) ∧ ∃ t, s.gWrite a v = .ok t ∧ OnlyCell a v s t)

/-! ## The move family -/

/-- R80 MOV.RI, R81 MOV.RR (41_move.md). -/
def Obligations.MoveImmediateOrRegisterToRegister : Prop :=
  ∀ s : State,
    (∀ (dst : Reg) (v : Word), ∃ t, exec (.movRI dst.index v) s = .next t ∧ OnlyRegister dst v s t) ∧
    (∀ dst v : Word, 7 < dst → ∃ t, exec (.movRI dst v) s = .next t ∧ OnlyFault .invalidRegister s t) ∧
    (∀ dst r : Reg, ∃ t, exec (.movRR dst.index r.index) s = .next t ∧ OnlyRegister dst (s.reg r) s t) ∧
    (∀ dst r : Word, 7 < dst ∨ 7 < r → ∃ t, exec (.movRR dst r) s = .next t ∧ OnlyFault .invalidRegister s t) ∧
    ∀ (m : OpcodeMap) (dst x : Word),
      (m.value .movRI = 0x00 → encodeWith m (.movRI dst x) = ⟨0x00, dst, x, 0x00⟩) ∧
      (m.value .movRR = 0x01 → encodeWith m (.movRR dst x) = ⟨0x01, dst, x, 0x00⟩)

/-- R83 MOV.AI, R86 MOV.MI (41_move.md). -/
def Obligations.MoveImmediateToMemory : Prop :=
  ∀ s : State,
    (∀ a v : Word, s.reg .sb ≤ a → ∃ t, exec (.movAI a v) s = .next t ∧ OnlyCell a v s t) ∧
    (∀ a v : Word, a < s.reg .sb → ∃ t, exec (.movAI a v) s = .next t ∧ OnlyFault .memoryGuardViolation s t) ∧
    (∀ (dst : Reg) (v : Word), s.reg .sb ≤ s.reg dst →
      ∃ t, exec (.movMI dst.index v) s = .next t ∧ OnlyCell (s.reg dst) v s t) ∧
    (∀ (dst : Reg) (v : Word), s.reg dst < s.reg .sb →
      ∃ t, exec (.movMI dst.index v) s = .next t ∧ OnlyFault .memoryGuardViolation s t) ∧
    (∀ dst v : Word, 7 < dst → ∃ t, exec (.movMI dst v) s = .next t ∧ OnlyFault .invalidRegister s t) ∧
    ∀ (m : OpcodeMap) (x v : Word),
      (m.value .movAI = 0x03 → encodeWith m (.movAI x v) = ⟨0x03, x, v, 0x00⟩) ∧
      (m.value .movMI = 0x06 → encodeWith m (.movMI x v) = ⟨0x06, x, v, 0x00⟩)

/-- R82 MOV.RM (41_move.md), the load: the order of its checks is the spec's decision D7 (log entry 10): source index, guard
on the source, destination index. -/
def Obligations.MoveFromMemoryToRegister : Prop :=
  ∀ s : State,
    (∀ dst r : Reg, s.reg .sb ≤ s.reg r →
      ∃ t, exec (.movRM dst.index r.index) s = .next t ∧ OnlyRegister dst (s.cell (s.reg r)) s t) ∧
    (∀ dst r : Word, 7 < r → ∃ t, exec (.movRM dst r) s = .next t ∧ OnlyFault .invalidRegister s t) ∧
    (∀ (dst : Word) (r : Reg), s.reg r < s.reg .sb →
      ∃ t, exec (.movRM dst r.index) s = .next t ∧ OnlyFault .memoryGuardViolation s t) ∧
    (∀ (dst : Word) (r : Reg), 7 < dst → s.reg .sb ≤ s.reg r →
      ∃ t, exec (.movRM dst r.index) s = .next t ∧ OnlyFault .invalidRegister s t)

/-- R84 MOV.AR, R87 MOV.MR (41_move.md), the stores: checks in the order of D7 (log entry 10): source index, destination
index, guard on the destination. -/
def Obligations.MoveRegisterToMemory : Prop :=
  ∀ s : State,
    (∀ (a : Word) (r : Reg), s.reg .sb ≤ a →
      ∃ t, exec (.movAR a r.index) s = .next t ∧ OnlyCell a (s.reg r) s t) ∧
    (∀ a r : Word, 7 < r → ∃ t, exec (.movAR a r) s = .next t ∧ OnlyFault .invalidRegister s t) ∧
    (∀ (a : Word) (r : Reg), a < s.reg .sb →
      ∃ t, exec (.movAR a r.index) s = .next t ∧ OnlyFault .memoryGuardViolation s t) ∧
    (∀ dst r : Reg, s.reg .sb ≤ s.reg dst →
      ∃ t, exec (.movMR dst.index r.index) s = .next t ∧ OnlyCell (s.reg dst) (s.reg r) s t) ∧
    (∀ dst r : Word, 7 < dst ∨ 7 < r → ∃ t, exec (.movMR dst r) s = .next t ∧ OnlyFault .invalidRegister s t) ∧
    (∀ dst r : Reg, s.reg dst < s.reg .sb →
      ∃ t, exec (.movMR dst.index r.index) s = .next t ∧ OnlyFault .memoryGuardViolation s t)

/-- R85 MOV.AM, R88 MOV.MM (41_move.md), memory to memory: checks in the order of D7 (log entry 10): source index, guard on
the source, destination index, guard on the destination. -/
def Obligations.MoveMemoryToMemory : Prop :=
  ∀ s : State,
    (∀ (a : Word) (r : Reg), s.reg .sb ≤ s.reg r → s.reg .sb ≤ a →
      ∃ t, exec (.movAM a r.index) s = .next t ∧ OnlyCell a (s.cell (s.reg r)) s t) ∧
    (∀ a r : Word, 7 < r → ∃ t, exec (.movAM a r) s = .next t ∧ OnlyFault .invalidRegister s t) ∧
    (∀ (a : Word) (r : Reg), s.reg r < s.reg .sb ∨ a < s.reg .sb →
      ∃ t, exec (.movAM a r.index) s = .next t ∧ OnlyFault .memoryGuardViolation s t) ∧
    (∀ dst r : Reg, s.reg .sb ≤ s.reg r → s.reg .sb ≤ s.reg dst →
      ∃ t, exec (.movMM dst.index r.index) s = .next t ∧ OnlyCell (s.reg dst) (s.cell (s.reg r)) s t) ∧
    (∀ dst r : Word, 7 < r → ∃ t, exec (.movMM dst r) s = .next t ∧ OnlyFault .invalidRegister s t) ∧
    (∀ (dst : Word) (r : Reg), s.reg r < s.reg .sb →
      ∃ t, exec (.movMM dst r.index) s = .next t ∧ OnlyFault .memoryGuardViolation s t) ∧
    (∀ (dst : Word) (r : Reg), 7 < dst → s.reg .sb ≤ s.reg r →
      ∃ t, exec (.movMM dst r.index) s = .next t ∧ OnlyFault .invalidRegister s t) ∧
    (∀ dst r : Reg, s.reg .sb ≤ s.reg r → s.reg dst < s.reg .sb →
      ∃ t, exec (.movMM dst.index r.index) s = .next t ∧ OnlyFault .memoryGuardViolation s t)

/-! ## The arithmetic family -/

/-- R90 ADD.RI, R92 SUB.RI, R94 MUL.RI (42_arithmetic.md): the result is the exact one modulo 256, taken in 0..255, and F is
no side effect. -/
def Obligations.AddSubMulImmediateModulo256 : Prop :=
  ∀ s : State,
    (∀ (dst : Reg) (v : Word),
      (∃ t, exec (.addRI dst.index v) s = .next t ∧
        OnlyRegister dst (BitVec.ofNat 8 (((s.reg dst).toNat + v.toNat) % 256)) s t) ∧
      (∃ t, exec (.subRI dst.index v) s = .next t ∧
        OnlyRegister dst (BitVec.ofNat 8 (((s.reg dst).toNat + 256 - v.toNat) % 256)) s t) ∧
      ∃ t, exec (.mulRI dst.index v) s = .next t ∧
        OnlyRegister dst (BitVec.ofNat 8 (((s.reg dst).toNat * v.toNat) % 256)) s t) ∧
    (∀ dst v : Word, 7 < dst →
      (∃ t, exec (.addRI dst v) s = .next t ∧ OnlyFault .invalidRegister s t) ∧
      (∃ t, exec (.subRI dst v) s = .next t ∧ OnlyFault .invalidRegister s t) ∧
      ∃ t, exec (.mulRI dst v) s = .next t ∧ OnlyFault .invalidRegister s t) ∧
    ∀ (m : OpcodeMap) (dst v : Word),
      (m.value .addRI = 0x09 → encodeWith m (.addRI dst v) = ⟨0x09, dst, v, 0x00⟩) ∧
      (m.value .subRI = 0x0B → encodeWith m (.subRI dst v) = ⟨0x0B, dst, v, 0x00⟩) ∧
      (m.value .mulRI = 0x0D → encodeWith m (.mulRI dst v) = ⟨0x0D, dst, v, 0x00⟩)

/-- R91 ADD.RR, R93 SUB.RR, R95 MUL.RR (42_arithmetic.md): source and destination may be the same register. -/
def Obligations.AddSubMulRegisterModulo256 : Prop :=
  ∀ s : State,
    (∀ dst r : Reg,
      (∃ t, exec (.addRR dst.index r.index) s = .next t ∧
        OnlyRegister dst (BitVec.ofNat 8 (((s.reg dst).toNat + (s.reg r).toNat) % 256)) s t) ∧
      (∃ t, exec (.subRR dst.index r.index) s = .next t ∧
        OnlyRegister dst (BitVec.ofNat 8 (((s.reg dst).toNat + 256 - (s.reg r).toNat) % 256)) s t) ∧
      ∃ t, exec (.mulRR dst.index r.index) s = .next t ∧
        OnlyRegister dst (BitVec.ofNat 8 (((s.reg dst).toNat * (s.reg r).toNat) % 256)) s t) ∧
    (∀ dst r : Word, 7 < dst ∨ 7 < r →
      (∃ t, exec (.addRR dst r) s = .next t ∧ OnlyFault .invalidRegister s t) ∧
      (∃ t, exec (.subRR dst r) s = .next t ∧ OnlyFault .invalidRegister s t) ∧
      ∃ t, exec (.mulRR dst r) s = .next t ∧ OnlyFault .invalidRegister s t) ∧
    ∀ (m : OpcodeMap) (dst r : Word),
      (m.value .addRR = 0x0A → encodeWith m (.addRR dst r) = ⟨0x0A, dst, r, 0x00⟩) ∧
      (m.value .subRR = 0x0C → encodeWith m (.subRR dst r) = ⟨0x0C, dst, r, 0x00⟩) ∧
      (m.value .mulRR = 0x0E → encodeWith m (.mulRR dst r) = ⟨0x0E, dst, r, 0x00⟩)

/-- R96 DIV.RI, R97 DIV.RR (42_arithmetic.md): the unsigned floor quotient (D11, log entry 12), an index above 7 checked
before the zero divisor (D7, log entry 10). -/
def Obligations.DivideGivesFloorQuotientOrFaults : Prop :=
  ∀ s : State,
    (∀ (dst : Reg) (v : Word), v ≠ 0 → ∃ t, exec (.divRI dst.index v) s = .next t ∧
      OnlyRegister dst (BitVec.ofNat 8 ((s.reg dst).toNat / v.toNat)) s t) ∧
    (∀ dst : Reg, ∃ t, exec (.divRI dst.index 0) s = .next t ∧ OnlyFault .arithmeticFault s t) ∧
    (∀ dst v : Word, 7 < dst → ∃ t, exec (.divRI dst v) s = .next t ∧ OnlyFault .invalidRegister s t) ∧
    (∀ dst r : Reg, s.reg r ≠ 0 → ∃ t, exec (.divRR dst.index r.index) s = .next t ∧
      OnlyRegister dst (BitVec.ofNat 8 ((s.reg dst).toNat / (s.reg r).toNat)) s t) ∧
    (∀ dst r : Reg, s.reg r = 0 →
      ∃ t, exec (.divRR dst.index r.index) s = .next t ∧ OnlyFault .arithmeticFault s t) ∧
    (∀ dst r : Word, 7 < dst ∨ 7 < r → ∃ t, exec (.divRR dst r) s = .next t ∧ OnlyFault .invalidRegister s t)

/-- R133 (60_exceptions.md): ArithmeticFault is raised by a DIV of a zero divisor once both operands are resolved, with the
destination unwritten, and by no other condition. -/
def Obligations.ArithmeticFaultIsDivisionByZeroAlone : Prop :=
  (∀ (s : State) (dst : Reg), ∃ t, exec (.divRI dst.index 0) s = .next t ∧ OnlyFault .arithmeticFault s t) ∧
  (∀ (s : State) (dst r : Reg), s.reg r = 0 →
    ∃ t, exec (.divRR dst.index r.index) s = .next t ∧ OnlyFault .arithmeticFault s t) ∧
  ∀ (i : Instr) (s t : State), s.fault ≠ some .arithmeticFault → exec i s = .next t →
    t.fault = some .arithmeticFault →
    (∃ dst : Reg, i = .divRI dst.index 0) ∨ ∃ dst r : Reg, i = .divRR dst.index r.index ∧ s.reg r = 0

/-! ## The stack family -/

/-- R101 PUSH.I (43_stack.md). -/
def Obligations.PushImmediateStoresThenRaisesSp : Prop :=
  ∀ (s : State) (v : Word),
    (s.reg .sb ≤ s.reg .sp → ∃ t, exec (.pushI v) s = .next t ∧
      t.cell (s.reg .sp) = v ∧ (∀ a, a ≠ s.reg .sp → t.cell a = s.cell a) ∧
      t.reg .sp = s.reg .sp + 1 ∧ (∀ r, r ≠ .sp → t.reg r = s.reg r) ∧ t.fault = s.fault) ∧
    (s.reg .sp < s.reg .sb → ∃ t, exec (.pushI v) s = .next t ∧ OnlyFault .memoryGuardViolation s t) ∧
    ∀ m : OpcodeMap, m.value .pushI = 0x11 → encodeWith m (.pushI v) = ⟨0x11, v, 0x00, 0x00⟩

/-- R102 PUSH.R (43_stack.md): the value stored is the one the register had before SP moves (SP itself included); a bad index
is reported before a guard violation (D7, log entry 10). -/
def Obligations.PushRegisterStoresThenRaisesSp : Prop :=
  ∀ s : State,
    (∀ r : Reg, s.reg .sb ≤ s.reg .sp → ∃ t, exec (.pushR r.index) s = .next t ∧
      t.cell (s.reg .sp) = s.reg r ∧ (∀ a, a ≠ s.reg .sp → t.cell a = s.cell a) ∧
      t.reg .sp = s.reg .sp + 1 ∧ (∀ q, q ≠ .sp → t.reg q = s.reg q) ∧ t.fault = s.fault) ∧
    (∀ r : Reg, s.reg .sp < s.reg .sb →
      ∃ t, exec (.pushR r.index) s = .next t ∧ OnlyFault .memoryGuardViolation s t) ∧
    (∀ r : Word, 7 < r → ∃ t, exec (.pushR r) s = .next t ∧ OnlyFault .invalidRegister s t)

/-- R103 POP.R (43_stack.md): SP is lowered first, then the destination (SP itself included) takes the cell; on either fault SP
stays lowered and nothing else changes. The guard is checked before the destination's index (D7, log entry 10). -/
def Obligations.PopLowersSpThenLoads : Prop :=
  ∀ s : State,
    (∀ dst : Reg, s.reg .sb ≤ s.reg .sp - 1 → ∃ t, exec (.popR dst.index) s = .next t ∧
      t.reg dst = s.cell (s.reg .sp - 1) ∧ (dst ≠ .sp → t.reg .sp = s.reg .sp - 1) ∧
      (∀ q, q ≠ dst → q ≠ .sp → t.reg q = s.reg q) ∧ (∀ a, t.cell a = s.cell a) ∧ t.fault = s.fault) ∧
    (∀ dst : Word, s.reg .sp - 1 < s.reg .sb → ∃ t, exec (.popR dst) s = .next t ∧
      t.fault = some .memoryGuardViolation ∧ t.reg .sp = s.reg .sp - 1 ∧
      (∀ q, q ≠ .sp → t.reg q = s.reg q) ∧ ∀ a, t.cell a = s.cell a) ∧
    (∀ dst : Word, 7 < dst → s.reg .sb ≤ s.reg .sp - 1 → ∃ t, exec (.popR dst) s = .next t ∧
      t.fault = some .invalidRegister ∧ t.reg .sp = s.reg .sp - 1 ∧
      (∀ q, q ≠ .sp → t.reg q = s.reg q) ∧ ∀ a, t.cell a = s.cell a)

/-- R100 (43_stack.md; which primitives: D20, log entry 25): with no fault pending, PUSH and POP are their two micro-ops through
`exec`, the second issued in the state the first leaves, and only if the first raised nothing. -/
def Obligations.PushAndPopAreTheirTwoMicroOps : Prop :=
  ∀ s : State, s.fault = none →
    (∀ v : Word, ∃ u, exec (.movMI 1 v) s = .next u ∧
      exec (.pushI v) s = if u.fault = none then exec (.addRI 1 1) u else .next u) ∧
    (∀ r : Word, ∃ u, exec (.movMR 1 r) s = .next u ∧
      exec (.pushR r) s = if u.fault = none then exec (.addRI 1 1) u else .next u) ∧
    (∀ dst : Word, ∃ u, exec (.subRI 1 1) s = .next u ∧
      exec (.popR dst) s = if u.fault = none then exec (.movRM dst 1) u else .next u)

/-- R104(1) (43_stack.md): last in, first out. A value that PUSH.I or PUSH.R pushes where the guard admits SP is what a POP.R
delivers, run from the push's result with IP moved in any way in between (as the next fetch moves it), and SP returns to its
value before the push unless it is itself the destination. -/
def Obligations.PopReturnsThePushedValue : Prop :=
  ∀ (s : State) (i : Instr) (v : Word), s.reg .sb ≤ s.reg .sp →
    (i = .pushI v ∨ ∃ r : Reg, i = .pushR r.index ∧ v = s.reg r) →
    ∃ t, exec i s = .next t ∧ ∀ (ip : Word) (t' : State) (dst : Reg), OnlyRegister .ip ip t t' →
      ∃ u, exec (.popR dst.index) t' = .next u ∧ u.fault = s.fault ∧ u.reg dst = v ∧
        (dst ≠ .sp → u.reg .sp = s.reg .sp) ∧ (dst ≠ .ip → u.reg .ip = ip) ∧
        (∀ r, r ≠ dst → r ≠ .sp → r ≠ .ip → u.reg r = s.reg r) ∧ ∀ a, a ≠ s.reg .sp → u.cell a = s.cell a

/-! ## Jumps, compares, conditional jumps -/

/-- R110 JMPR.I, R111 JMPR.R, R112 JMPA.I, R113 JMPA.R (44_jump.md): `s.reg .ip` is the post-fetch IP, `e -8 4`. -/
def Obligations.UnconditionalJumpsWriteIp : Prop :=
  ∀ s : State,
    (∀ k : Word, ∃ t, exec (.jmprI k) s = .next t ∧ OnlyRegister .ip (s.reg .ip - k) s t) ∧
    (∀ r : Reg, ∃ t, exec (.jmprR r.index) s = .next t ∧ OnlyRegister .ip (s.reg .ip - s.reg r) s t) ∧
    (∀ x : Word, ∃ t, exec (.jmpaI x) s = .next t ∧ OnlyRegister .ip x s t) ∧
    (∀ r : Reg, ∃ t, exec (.jmpaR r.index) s = .next t ∧ OnlyRegister .ip (s.reg r) s t) ∧
    (∀ r : Word, 7 < r →
      (∃ t, exec (.jmprR r) s = .next t ∧ OnlyFault .invalidRegister s t) ∧
      ∃ t, exec (.jmpaR r) s = .next t ∧ OnlyFault .invalidRegister s t) ∧
    ∀ (m : OpcodeMap) (x : Word),
      (m.value .jmprI = 0x14 → encodeWith m (.jmprI x) = ⟨0x14, x, 0x00, 0x00⟩) ∧
      (m.value .jmprR = 0x15 → encodeWith m (.jmprR x) = ⟨0x15, x, 0x00, 0x00⟩) ∧
      (m.value .jmpaI = 0x16 → encodeWith m (.jmpaI x) = ⟨0x16, x, 0x00, 0x00⟩) ∧
      (m.value .jmpaR = 0x17 → encodeWith m (.jmpaR x) = ⟨0x17, x, 0x00, 0x00⟩)

/-- R116 CMP.RR, R117 CMP.RI (45_compare.md): bit 0 of F is whether left equals right, bit 1 whether left is below right,
unsigned; bits 7..2 are kept; nothing but F changes. -/
def Obligations.CompareWritesTwoFlagBits : Prop :=
  ∀ s : State,
    (∀ x y : Reg, ∃ t, exec (.cmpRR x.index y.index) s = .next t ∧ OnlyRegister .f (t.reg .f) s t ∧
      ((t.reg .f).getLsbD 0 = true ↔ (s.reg x).toNat = (s.reg y).toNat) ∧
      ((t.reg .f).getLsbD 1 = true ↔ (s.reg x).toNat < (s.reg y).toNat) ∧
      ∀ k, 2 ≤ k → (t.reg .f).getLsbD k = (s.reg .f).getLsbD k) ∧
    (∀ a b : Word, 7 < a ∨ 7 < b → ∃ t, exec (.cmpRR a b) s = .next t ∧ OnlyFault .invalidRegister s t) ∧
    (∀ (x : Reg) (v : Word), ∃ t, exec (.cmpRI x.index v) s = .next t ∧ OnlyRegister .f (t.reg .f) s t ∧
      ((t.reg .f).getLsbD 0 = true ↔ (s.reg x).toNat = v.toNat) ∧
      ((t.reg .f).getLsbD 1 = true ↔ (s.reg x).toNat < v.toNat) ∧
      ∀ k, 2 ≤ k → (t.reg .f).getLsbD k = (s.reg .f).getLsbD k) ∧
    (∀ a v : Word, 7 < a → ∃ t, exec (.cmpRI a v) s = .next t ∧ OnlyFault .invalidRegister s t) ∧
    ∀ (m : OpcodeMap) (a x : Word),
      (m.value .cmpRR = 0x18 → encodeWith m (.cmpRR a x) = ⟨0x18, a, x, 0x00⟩) ∧
      (m.value .cmpRI = 0x19 → encodeWith m (.cmpRI a x) = ⟨0x19, a, x, 0x00⟩)

/-- R120 JER.I, R122 JEA.I (46_condjump.md): the jump when bit 0 of F is 1, nothing at all when it is 0. -/
def Obligations.ConditionalJumpOnImmediate : Prop :=
  ∀ (s : State) (x : Word),
    ((s.reg .f).getLsbD 0 = true →
      (∃ t, exec (.jerI x) s = .next t ∧ OnlyRegister .ip (s.reg .ip - x) s t) ∧
      ∃ t, exec (.jeaI x) s = .next t ∧ OnlyRegister .ip x s t) ∧
    ((s.reg .f).getLsbD 0 = false → exec (.jerI x) s = .next s ∧ exec (.jeaI x) s = .next s) ∧
    ∀ m : OpcodeMap,
      (m.value .jerI = 0x1A → encodeWith m (.jerI x) = ⟨0x1A, x, 0x00, 0x00⟩) ∧
      (m.value .jeaI = 0x1C → encodeWith m (.jeaI x) = ⟨0x1C, x, 0x00, 0x00⟩)

/-- R121 JER.R, R123 JEA.R (46_condjump.md): as the unconditional forms when bit 0 of F is 1; when it is 0 the operand is not
resolved, so an index above 7 raises nothing (D10, log entry 11). -/
def Obligations.ConditionalJumpOnRegister : Prop :=
  ∀ s : State,
    (∀ r : Reg, (s.reg .f).getLsbD 0 = true →
      (∃ t, exec (.jerR r.index) s = .next t ∧ OnlyRegister .ip (s.reg .ip - s.reg r) s t) ∧
      ∃ t, exec (.jeaR r.index) s = .next t ∧ OnlyRegister .ip (s.reg r) s t) ∧
    (∀ r : Word, 7 < r → (s.reg .f).getLsbD 0 = true →
      (∃ t, exec (.jerR r) s = .next t ∧ OnlyFault .invalidRegister s t) ∧
      ∃ t, exec (.jeaR r) s = .next t ∧ OnlyFault .invalidRegister s t) ∧
    ∀ r : Word, (s.reg .f).getLsbD 0 = false → exec (.jerR r) s = .next s ∧ exec (.jeaR r) s = .next s

/-- R78 (40_fetch_decode.md): target arithmetic. From a jump with entry address `e`, offset `(e -8 4) -8 t` and target `t` both
continue at entry address `t`. -/
def Obligations.RelativeAndAbsoluteJumpsReachOneTarget : Prop :=
  ∀ (m : OpcodeMap) (s : State) (x : Word), s.status = .running →
    ((fetch s).1 = encodeWith m (.jmprI (s.reg .ip - 4 - x)) ∨ (fetch s).1 = encodeWith m (.jmpaI x)) →
    ∃ t, stepWith m s = .next t ∧ OnlyRegister .ip x s t

/-! ## Frames over all instructions -/

/-- R10, R16, R89: an instruction leaves every register it may not write as it was: its Reg destination, IP for a jump, F for
a compare and SP for PUSH and POP are all it writes. -/
def Obligations.InstructionsKeepOtherRegisters : Prop :=
  ∀ (i : Instr) (s t : State) (r : Reg), exec i s = .next t → r ∉ writtenRegisters i → t.reg r = s.reg r

/-- R21, R37: an instruction leaves every cell but the one it stores to as it was; one that stores nothing leaves all of
memory. The address is the [Abs] field, the value of the [Reg] destination, or SP for PUSH. -/
def Obligations.InstructionsKeepOtherCells : Prop :=
  ∀ (i : Instr) (s t : State) (a : Word), exec i s = .next t → storeAddress i s ≠ some a → t.cell a = s.cell a

/-- R77, R166 (D5): after an instruction that does not write IP the next entry address is 4 lower, modulo 256; from an odd
IP, as Load leaves it, that is never 0, so sequential execution alone never halts. -/
def Obligations.SequentialStepLowersIpByFour : Prop :=
  ∀ (m : OpcodeMap) (s : State) (i : Instr), s.status = .running → decodeWith m (fetch s).1 = .ok i →
    .ip ∉ writtenRegisters i →
    ∃ t, stepWith m s = .next t ∧ t.reg .ip = s.reg .ip - 4 ∧
      ((s.reg .ip).getLsbD 0 = true → (t.reg .ip).getLsbD 0 = true ∧ t.reg .ip ≠ 0)

/-! ## Faults -/

/-- R138, R139 (60_exceptions.md; C1): a step that raises leaves IP at the entry address minus 4, SP one lower if the
instruction is a POP.R, and every other register and every cell as it was before the step. -/
def Obligations.FaultingStepKeepsAllButIpAndPoppedSp : Prop :=
  ∀ (m : OpcodeMap) (s t : State) (k : FaultKind), s.status = .running → stepWith m s = .next t → t.fault = some k →
    t.reg .ip = s.reg .ip - 4 ∧
    ((∃ dst, decodeWith m (fetch s).1 = .ok (.popR dst)) → t.reg .sp = s.reg .sp - 1) ∧
    ((¬ ∃ dst, decodeWith m (fetch s).1 = .ok (.popR dst)) → t.reg .sp = s.reg .sp) ∧
    (∀ r, r ≠ .ip → r ≠ .sp → t.reg r = s.reg r) ∧ ∀ a, t.cell a = s.cell a

/-- R130 (60_exceptions.md), column "Raised by", with R134 and R135: an instruction raises only the kinds the table gives it;
in particular none raises InvalidOpcode or InvalidInstructionPointer. -/
def Obligations.InstructionsRaiseOnlyTheirFaultKinds : Prop :=
  ∀ (i : Instr) (s t : State) (k : FaultKind), s.fault = none → exec i s = .next t → t.fault = some k →
    i.mnemonic ∈ raisedBy k

/-- R53, R131: an instruction whose register fields all name registers never raises InvalidRegister. -/
def Obligations.WellFormedInstructionsNeverRaiseInvalidRegister : Prop :=
  ∀ (i : Instr) (s t : State), i.wellFormed = true → s.fault ≠ some .invalidRegister → exec i s = .next t →
    t.fault ≠ some .invalidRegister

/-- R23, R140 (D8, D12, D24; log entries 5, 8, 24): the only transaction that changes anything of a Faulted machine is Reset. -/
def Obligations.FaultedMachineIsLeftOnlyByReset : Prop :=
  ∀ (p : Parameters) (tr : Transaction) (x y : Session), x.machine.status = .faulted → transactWith p tr x = .next y →
    y = x ∨ tr = .reset ∧ y = Session.start

/-! ## Memory: invariant, protection, coherence -/

/-- The invariants hold after Reset (R24; canonical form: log entry 20; nothing loaded: log entry 8). -/
def Obligations.ResetStateMeetsTheInvariant : Prop := MachineInvariant State.reset ∧ SessionInvariant Session.start

/-- Every step keeps the invariant, under every map: memory stays in its canonical form (log entry 20) and the reserved fault
kind never enters the latch (R135). -/
def Obligations.EveryStepKeepsTheInvariant : Prop :=
  ∀ (m : OpcodeMap) (s t : State), MachineInvariant s → stepWith m s = .next t → MachineInvariant t

/-- Every host transaction keeps the invariant too (R150 to R161), and with it that the machine is as Reset left it until a Load
is applied (R151: "Load is the only boot step"; log entry 8). -/
def Obligations.EveryTransactionKeepsTheInvariant : Prop :=
  ∀ (p : Parameters) (tr : Transaction) (x y : Session), SessionInvariant x → transactWith p tr x = .next y →
    SessionInvariant y

/-- Two memories in canonical form that read alike at every one of the 256 addresses are equal data (R20; log entry 20, the
model's own representation). -/
def Obligations.CanonicalMemoriesThatReadAlikeAreEqual : Prop :=
  ∀ m m' : Memory, m.wf → m'.wf → (∀ a, a < 256 → m.read a = m'.read a) → m = m'

/-- R36, R37: no step changes a cell below the stack base it starts with, under any map. -/
def Obligations.NoStepWritesBelowItsStackBase : Prop :=
  ∀ (m : OpcodeMap) (s t : State) (a : Word), stepWith m s = .next t → a < s.reg .sb → t.cell a = s.cell a

/-- R36, R37: what an instruction does depends on no cell below the stack base: two states that differ at most there are taken
to two states that agree on every register, on the latch, and on every cell at or above that base. -/
def Obligations.NoInstructionReadsBelowItsStackBase : Prop :=
  ∀ (i : Instr) (s s' t t' : State), SameAboveStackBase s s' → exec i s = .next t → exec i s' = .next t' →
    (∀ r, t.reg r = t'.reg r) ∧ t.fault = t'.fault ∧ ∀ a, s.reg .sb ≤ a → t.cell a = t'.cell a

/-- R33, R40(2): after any instruction that stores `v` to `a` (a move to memory or a PUSH) and raises nothing, a MOV.RM whose source
register holds `a` reads `v`, with IP moved in any way in between (as the next fetch moves it). -/
def Obligations.LoadReadsTheLastStore : Prop :=
  ∀ (i : Instr) (s t t' : State) (a v ip : Word) (dst r : Reg),
    storeAddress i s = some a → storedValue i s = some v → exec i s = .next t → t.fault = none →
    OnlyRegister .ip ip t t' → t'.reg r = a →
    ∃ u, exec (.movRM dst.index r.index) t' = .next u ∧ OnlyRegister dst v t' u

/-- R43 (20_memory.md): what any instruction that stores (a move to memory or a PUSH) stores without a fault is seen by the very
next fetch, with nothing in between, wherever in the block it falls. -/
def Obligations.NextFetchSeesTheStore : Prop :=
  ∀ (i : Instr) (s t : State) (a v : Word),
    storeAddress i s = some a → storedValue i s = some v → exec i s = .next t → t.fault = none →
    (a = t.reg .ip → (fetch t).1.operand3 = v) ∧ (a = t.reg .ip - 1 → (fetch t).1.operand2 = v) ∧
    (a = t.reg .ip - 2 → (fetch t).1.operand1 = v) ∧ (a = t.reg .ip - 3 → (fetch t).1.operation = v)

/-! ## Load, Execute, Inspect, halting -/

/-- R153 (70_reset_and_hazards.md): the end state of Load of `I_0 .. I_(N-1)`, 1 ≤ N ≤ 63. -/
def Obligations.LoadPlacesTheProgramInReverse : Prop :=
  ∀ program : List Record, 1 ≤ program.length → program.length ≤ 63 →
    ∃ x t, load program Session.start = .next x ∧ x.machine = t ∧
      (∀ (j : Nat) (r : Record), program[j]? = some r →
        t.cell (BitVec.ofNat 8 (4 * (program.length - 1 - j))) = r.operation ∧
        t.cell (BitVec.ofNat 8 (4 * (program.length - 1 - j) + 1)) = r.operand1 ∧
        t.cell (BitVec.ofNat 8 (4 * (program.length - 1 - j) + 2)) = r.operand2 ∧
        t.cell (BitVec.ofNat 8 (4 * (program.length - 1 - j) + 3)) = r.operand3) ∧
      (∀ a : Word, 4 * program.length ≤ a.toNat → t.cell a = 0) ∧
      t.reg .ip = BitVec.ofNat 8 (4 * program.length - 1) ∧
      t.reg .sp = BitVec.ofNat 8 (4 * program.length) ∧ t.reg .sb = BitVec.ofNat 8 (4 * program.length) ∧
      t.reg .a = 0 ∧ t.reg .b = 0 ∧ t.reg .c = 0 ∧ t.reg .d = 0 ∧ t.reg .f = 0 ∧
      t.fault = none ∧ t.status = .running

/-- R154: Load of the empty sequence leaves the reset state, Halted, and Execute then makes no step. -/
def Obligations.LoadOfNothingStaysHalted : Prop :=
  (∃ x, load [] Session.start = .next x ∧ x.machine = State.reset) ∧ State.reset.status = .halted ∧
    ∀ (m : OpcodeMap) (fuel : Nat), executeWith m fuel State.reset = .next State.reset

/-- R151 (D12, D22; log entries 3, 8): Load is refused once one was applied since the last Reset (an empty one too), refused
outside the Reset state, and refused for more than `MAX_PROGRAM` instructions; otherwise it is applied. -/
def Obligations.LoadRefusesUsedMachinesAndLongPrograms : Prop :=
  ∀ (p : Parameters) (program : List Record),
    (∀ x : Session, x.loaded = true → transactWith p (.load program) x = .refused .loadTwice) ∧
    (∀ s : State, s ≠ State.reset → transactWith p (.load program) ⟨s, false⟩ = .refused .loadOutsideReset) ∧
    (p.maxProgram < program.length → transactWith p (.load program) Session.start = .refused .loadTooLong) ∧
    (program.length ≤ p.maxProgram → ∃ y, transactWith p (.load program) Session.start = .next y ∧ y.loaded = true)

/-- R73 (40_fetch_decode.md): encode writes a block upwards from IP and leaves IP just above it; a block in memory is fetched
as the record it holds and leaves IP just below it; and after Load of N instructions, 1 ≤ N ≤ 63, N fetches with no dispatch
between them return the sequence in order and leave IP = 255. -/
def Obligations.FetchesReturnTheLoadedSequence : Prop :=
  (∀ (s : State) (r : Record), (encodeAt s r).cell (s.reg .ip) = r.operation ∧
    (encodeAt s r).cell (s.reg .ip + 1) = r.operand1 ∧ (encodeAt s r).cell (s.reg .ip + 2) = r.operand2 ∧
    (encodeAt s r).cell (s.reg .ip + 3) = r.operand3 ∧ (encodeAt s r).reg .ip = s.reg .ip + 4) ∧
  (∀ (s : State) (b : Word) (r : Record),
    s.cell b = r.operation → s.cell (b + 1) = r.operand1 → s.cell (b + 2) = r.operand2 → s.cell (b + 3) = r.operand3 →
    s.reg .ip = b + 3 → (fetch s).1 = r ∧ (fetch s).2.reg .ip = b - 1) ∧
  ∀ program : List Record, 1 ≤ program.length → program.length ≤ 63 →
    ∃ x t, load program Session.start = .next x ∧ x.machine = t ∧
      (fetchMany program.length t).1 = program ∧ (fetchMany program.length t).2.reg .ip = 255

/-- R160 (70_reset_and_hazards.md; fuel: log entry 9): Execute ends in a state exactly when some number of Steps within the fuel
reaches that state and it is not Running: "a run by Steps and a run by Execute reach the same states". -/
def Obligations.ExecuteReachesWhatStepsReach : Prop :=
  ∀ (m : OpcodeMap) (fuel : Nat) (s t : State),
    executeWith m fuel s = .next t ↔ t.status ≠ .running ∧ ∃ n, n ≤ fuel ∧ stepsWith m n s = .next t

/-- R161 (half open: D14, log entry 23; the fault's number: R130, D9, log entry 2): Inspect changes nothing, for all parameters
and in every session, and what it shows is the value of each register, the status, the fault kind with its `FAULT_CODE`, and a
stack window that lists exactly the cells from SB up to but not including SP, each with its value, and nothing when SP is not
above SB. -/
def Obligations.InspectShowsTheStackWindow : Prop :=
  ∀ (p : Parameters) (x : Session), transactWith p .inspect x = .next x ∧
    ∃ o, observeWith p .inspect x = some o ∧
      (∀ a v : Word, (a, v) ∈ o.window ↔
        x.machine.reg .sb ≤ a ∧ a < x.machine.reg .sp ∧ v = x.machine.cell a) ∧
      (x.machine.reg .sp ≤ x.machine.reg .sb → o.window = []) ∧
      (∀ r, o.registers.get r = x.machine.reg r) ∧ o.status = x.machine.status ∧ o.fault = x.machine.fault ∧
      o.faultCode = p.faultCode x.machine.fault

/-- R168 (70_reset_and_hazards.md): `jmpa 0` and `mov IP, 0` halt the machine under every opcode numbering, changing IP alone. -/
def Obligations.JumpOrMoveToZeroHaltsUnderEveryMap : Prop :=
  ∀ (m : OpcodeMap) (s : State), s.status = .running →
    ((fetch s).1 = encodeWith m (.jmpaI 0) ∨ (fetch s).1 = encodeWith m (.movRI 0 0)) →
    ∃ t, stepWith m s = .next t ∧ OnlyRegister .ip 0 s t ∧ t.status = .halted

/-- R167 (D1, log entry 1): under the spec's default map, and only as its consequence, four zero cells are `mov IP, 0`: the step
halts the machine and changes IP alone. -/
def Obligations.ZeroCellsHaltUnderTheDefaultMap : Prop :=
  ∀ s : State, s.status = .running → (∀ k : Word, k ≤ 3 → s.cell (s.reg .ip - k) = 0) →
    ∃ t, step s = .next t ∧ OnlyRegister .ip 0 s t ∧ t.status = .halted
end

