-- ==== Sys2Proof/Laws/Decode.lean ====
section
/-!
SUPPORT. What the opcode lookup can do, for any `OPCODE_MAP`, and the parts of an instruction.
-/
namespace Sys2Proof

/-- A mnemonic's value looks that mnemonic up, because the map is injective (R57). -/
@[simp] theorem Mnemonic.ofOperation_value (m : OpcodeMap) (k : Mnemonic) :
    Mnemonic.ofOperation m (m.value k) = some k := by
  unfold Mnemonic.ofOperation
  cases e : Mnemonic.all.find? (fun j => m.value j == m.value k) with
  | none => exact absurd (List.find?_eq_none.1 e k k.mem_all) (by simp)
  | some j => rw [m.injective j k (by simpa using List.find?_some e)]

/-- What is looked up has the byte as its value. -/
theorem Mnemonic.value_of_ofOperation {m : OpcodeMap} {op : Word} {k : Mnemonic}
    (h : Mnemonic.ofOperation m op = some k) : m.value k = op := by
  simpa using List.find?_some h

/-- The lookup fails exactly on bytes that are the value of no mnemonic (R58). -/
theorem Mnemonic.ofOperation_eq_none {m : OpcodeMap} {op : Word} :
    Mnemonic.ofOperation m op = none ↔ ∀ k, m.value k ≠ op := by
  unfold Mnemonic.ofOperation
  rw [List.find?_eq_none]
  exact ⟨fun h k => by simpa using h k k.mem_all, fun h k _ => by simpa using h k⟩

@[simp] theorem Mnemonic.mnemonic_withOperands (k : Mnemonic) (o1 o2 : Word) : (k.withOperands o1 o2).mnemonic = k := by
  cases k <;> rfl

@[simp] theorem encodeWith_operation (m : OpcodeMap) (i : Instr) : (encodeWith m i).operation = m.value i.mnemonic := by
  cases i <;> rfl

@[simp] theorem encodeWith_operand3 (m : OpcodeMap) (i : Instr) : (encodeWith m i).operand3 = 0 := by
  cases i <;> rfl

/-- The encoder puts an instruction's operands where `withOperands` takes them from (R54). -/
theorem Instr.withOperands_encodeWith (m : OpcodeMap) (i : Instr) :
    i.mnemonic.withOperands (encodeWith m i).operand1 (encodeWith m i).operand2 = i := by
  cases i <;> rfl

/-- All decoding can do: an instruction of the mnemonic whose value the operation byte is, or a named refusal. -/
theorem decodeWith_cases (m : OpcodeMap) (r : Record) :
    (∃ k, m.value k = r.operation ∧ decodeWith m r = .ok (k.withOperands r.operand1 r.operand2)) ∨
      ((∀ k, m.value k ≠ r.operation) ∧ decodeWith m r = .error (.invalidOpcode r.operation)) := by
  unfold decodeWith
  cases e : Mnemonic.ofOperation m r.operation with
  | some k => exact .inl ⟨k, Mnemonic.value_of_ofOperation e, rfl⟩
  | none => exact .inr ⟨Mnemonic.ofOperation_eq_none.1 e, rfl⟩

/-- R52: `fromBytes` is the inverse of `toBytes`. -/
@[simp] theorem Record.fromBytes_toBytes (r : Record) : Record.fromBytes r.toBytes = some r := rfl

end Sys2Proof
end

