-- ==== Sys2Proof/Laws/State.lean ====
section
/-!
SUPPORT. One lemma per field per update of the state, and the laws of the register file.
-/
namespace Sys2Proof.Machine

/-! ## Register indices -/

@[simp] theorem Reg.ofIndex_index (r : Reg) : Reg.ofIndex r.index = some r := by
  cases r <;> rfl

/-- R12: exactly the indices above 7 select no register. -/
theorem Reg.ofIndex_eq_none {i : Word} (h : 7 < i) : Reg.ofIndex i = none := by
  have h' : 7 < i.toNat := h
  unfold Reg.ofIndex
  split <;> first | omega | rfl

/-- A selected register has the index it was selected by. -/
theorem Reg.index_of_ofIndex {i : Word} {r : Reg} (h : Reg.ofIndex i = some r) : i = r.index := by
  unfold Reg.ofIndex at h
  apply BitVec.eq_of_toNat_eq
  split at h <;> first | (cases h; assumption) | cases h

/-- An index selects a register or is above 7. -/
theorem Reg.index_cases (i : Word) : (∃ r : Reg, i = r.index) ∨ 7 < i := by
  by_cases h : 7 < i
  · exact .inr h
  · have h' : i.toNat ≤ 7 := Nat.le_of_not_lt h
    have hi : i.toNat = 0 ∨ i.toNat = 1 ∨ i.toNat = 2 ∨ i.toNat = 3 ∨ i.toNat = 4 ∨ i.toNat = 5 ∨
        i.toNat = 6 ∨ i.toNat = 7 := by omega
    rcases hi with e | e | e | e | e | e | e | e
    exacts [.inl ⟨.ip, BitVec.eq_of_toNat_eq e⟩, .inl ⟨.sp, BitVec.eq_of_toNat_eq e⟩,
      .inl ⟨.sb, BitVec.eq_of_toNat_eq e⟩, .inl ⟨.a, BitVec.eq_of_toNat_eq e⟩, .inl ⟨.b, BitVec.eq_of_toNat_eq e⟩,
      .inl ⟨.c, BitVec.eq_of_toNat_eq e⟩, .inl ⟨.d, BitVec.eq_of_toNat_eq e⟩, .inl ⟨.f, BitVec.eq_of_toNat_eq e⟩]

/-- A register's index is never above 7 (R10). -/
theorem Reg.not_gt_index (r : Reg) : ¬ 7 < r.index := by
  cases r <;> decide

/-! ## Raw register writes -/

@[simp] theorem State.reg_setReg_self (s : State) (r : Reg) (v : Word) : (s.setReg r v).reg r = v := by
  cases r <;> rfl

theorem State.reg_setReg (s : State) (r q : Reg) (v : Word) :
    (s.setReg r v).reg q = if q = r then v else s.reg q := by
  cases r <;> cases q <;> rfl

@[simp] theorem State.reg_setReg_of_ne (s : State) {r q : Reg} (v : Word) (h : q ≠ r) :
    (s.setReg r v).reg q = s.reg q := by
  rw [State.reg_setReg, if_neg h]

@[simp] theorem State.mem_setReg (s : State) (r : Reg) (v : Word) : (s.setReg r v).mem = s.mem := rfl
@[simp] theorem State.fault_setReg (s : State) (r : Reg) (v : Word) : (s.setReg r v).fault = s.fault := rfl
@[simp] theorem State.cell_setReg (s : State) (r : Reg) (v a : Word) : (s.setReg r v).cell a = s.cell a := rfl

/-! ## Taking a fault -/

@[simp] theorem State.reg_takeFault (s : State) (k : FaultKind) (r : Reg) : (s.takeFault k).reg r = s.reg r := rfl
@[simp] theorem State.mem_takeFault (s : State) (k : FaultKind) : (s.takeFault k).mem = s.mem := rfl
@[simp] theorem State.cell_takeFault (s : State) (k : FaultKind) (a : Word) : (s.takeFault k).cell a = s.cell a := rfl
@[simp] theorem State.fault_takeFault (s : State) (k : FaultKind) : (s.takeFault k).fault = some k := rfl

/-! ## Raw memory writes (their effect on the cells: Laws/Memory.lean) -/

@[simp] theorem State.reg_setCell (s : State) (a v : Word) (r : Reg) : (s.setCell a v).reg r = s.reg r := rfl
@[simp] theorem State.fault_setCell (s : State) (a v : Word) : (s.setCell a v).fault = s.fault := rfl
@[simp] theorem State.mem_setCell (s : State) (a v : Word) : (s.setCell a v).mem = s.mem.write a.toNat v := rfl

/-- Two states with equal registers, memory and latch are equal. -/
theorem State.ext_reg {s t : State} (hr : ∀ r, s.reg r = t.reg r) (hm : s.mem = t.mem) (hf : s.fault = t.fault) :
    s = t := by
  obtain ⟨⟨ip, sp, sb, a, b, c, d, f⟩, sm, sf⟩ := s
  obtain ⟨⟨ip', sp', sb', a', b', c', d', f'⟩, tm, tf⟩ := t
  have h0 := hr .ip; have h1 := hr .sp; have h2 := hr .sb; have h3 := hr .a
  have h4 := hr .b; have h5 := hr .c; have h6 := hr .d; have h7 := hr .f
  simp only [State.reg, Registers.get] at h0 h1 h2 h3 h4 h5 h6 h7
  subst h0 h1 h2 h3 h4 h5 h6 h7 hm hf
  rfl

end Sys2Proof.Machine
end

