-- ==== Sys2Proof/Laws/Memory.lean ====
section
/-!
SUPPORT. The laws of memory: a read after a write, and the canonical form, which every memory operation keeps.
-/
namespace Sys2Proof.Machine

theorem Memory.read_insert (m : Memory) (a b : Nat) (v : Word) (h : ∀ c ∈ m, c.1 ≠ a) :
    (Memory.insert a v m).read b = if a = b then v else m.read b := by
  induction m with
  | nil => rfl
  | cons c rest ih =>
    have hc : c.1 ≠ a := h c (by simp)
    have ih := ih fun c' hc' => h c' (by simp [hc'])
    by_cases hlt : a < c.1
    · simp [Memory.insert, Memory.read, hlt]
    · by_cases hb : c.1 = b
      · subst hb
        simp [Memory.insert, Memory.read, hlt, Ne.symm hc]
      · simp [Memory.insert, Memory.read, hlt, hb, ih]

theorem Memory.read_filter (m : Memory) (a b : Nat) :
    Memory.read (m.filter (fun c => c.1 != a)) b = if a = b then Memory.unlisted else m.read b := by
  induction m with
  | nil => simp [Memory.read]
  | cons c rest ih =>
    by_cases hc : c.1 = a
    · by_cases hb : a = b <;> simp_all [Memory.read]
    · by_cases hb : c.1 = b
      · subst hb
        simp [Memory.read, hc, Ne.symm hc]
      · simp [Memory.read, hc, hb, ih]

/-- R40(2): a read returns what the last write to that address wrote, and a write leaves every other address alone. -/
theorem Memory.read_write (m : Memory) (a b : Nat) (v : Word) :
    (m.write a v).read b = if a = b then v else m.read b := by
  unfold Memory.write
  split
  · rw [Memory.read_filter]; simp_all
  · rw [Memory.read_insert _ _ _ _ (by simp), Memory.read_filter]
    split <;> rfl

/-- The address an unlisted cell is read at holds `Memory.unlisted`. -/
theorem Memory.read_of_not_mem (m : Memory) (a : Nat) (h : ∀ c ∈ m, c.1 ≠ a) : m.read a = Memory.unlisted := by
  induction m with
  | nil => rfl
  | cons c rest ih =>
    simp [Memory.read, h c (by simp), ih fun c' hc' => h c' (by simp [hc'])]

theorem Memory.mem_insert {m : Memory} {a : Nat} {v : Word} {c : Host.Cell} :
    c ∈ Memory.insert a v m ↔ c = (a, v) ∨ c ∈ m := by
  induction m with
  | nil => simp [Memory.insert]
  | cons e rest ih =>
    by_cases h : a < e.1
    · simp [Memory.insert, h]
    · simp only [Memory.insert, h, if_false, List.mem_cons, ih]
      tauto

theorem Memory.pairwise_insert {m : Memory} {a : Nat} {v : Word} (h : m.Pairwise (fun c c' => c.1 < c'.1))
    (ha : ∀ c ∈ m, c.1 ≠ a) : (Memory.insert a v m).Pairwise (fun c c' => c.1 < c'.1) := by
  induction m with
  | nil => simp [Memory.insert]
  | cons e rest ih =>
    rw [List.pairwise_cons] at h
    have he : e.1 ≠ a := ha e (by simp)
    by_cases hlt : a < e.1
    · simp only [Memory.insert, hlt, if_true, List.pairwise_cons, List.mem_cons]
      refine ⟨?_, h⟩
      rintro c (rfl | hc)
      · exact hlt
      · exact hlt.trans (h.1 c hc)
    · simp only [Memory.insert, hlt, if_false, List.pairwise_cons, Memory.mem_insert]
      refine ⟨?_, ih h.2 fun c hc => ha c (by simp [hc])⟩
      rintro c (rfl | hc)
      · exact lt_of_le_of_ne (Nat.le_of_not_lt hlt) he
      · exact h.1 c hc

/-- A write to one of the 256 addresses keeps the canonical form. -/
theorem Memory.wf_write {m : Memory} {a : Nat} (v : Word) (h : m.wf) (ha : a < 256) : (m.write a v).wf := by
  have hf : (m.filter (fun c => c.1 != a)).Pairwise (fun c c' => c.1 < c'.1) := h.1.filter _
  have hm : ∀ c ∈ m.filter (fun c => c.1 != a), c.1 < 256 ∧ c.2 ≠ Memory.unlisted :=
    fun c hc => h.2 c (List.mem_of_mem_filter hc)
  unfold Memory.write
  split
  · exact ⟨hf, hm⟩
  · rename_i hv
    refine ⟨Memory.pairwise_insert hf (by simp), fun c hc => ?_⟩
    rcases Memory.mem_insert.1 hc with rfl | hc
    · exact ⟨ha, hv⟩
    · exact hm c hc

/-- The reset memory is in canonical form. -/
theorem Memory.wf_reset : State.reset.mem.wf := by decide

/-! ## The state's cells -/

/-- R40(2) for the cells of a state. -/
theorem State.cell_setCell (s : State) (a b v : Word) :
    (s.setCell a v).cell b = if b = a then v else s.cell b := by
  have h : a.toNat = b.toNat ↔ b = a := by
    rw [eq_comm, BitVec.toNat_inj]
  simp only [State.cell, State.mem_setCell, Memory.read_write, h]

@[simp] theorem State.cell_setCell_self (s : State) (a v : Word) : (s.setCell a v).cell a = v := by
  rw [State.cell_setCell, if_pos rfl]

@[simp] theorem State.cell_setCell_of_ne (s : State) {a b : Word} (v : Word) (h : b ≠ a) :
    (s.setCell a v).cell b = s.cell b := by
  rw [State.cell_setCell, if_neg h]

/-- A raw memory write keeps the canonical form. -/
theorem State.wf_setCell {s : State} (a v : Word) (h : s.mem.wf) : (s.setCell a v).mem.wf :=
  Memory.wf_write v h a.isLt

/-- A cell of the reset state is 0 (R24). -/
@[simp] theorem State.cell_reset (a : Word) : State.reset.cell a = 0 := rfl

end Sys2Proof.Machine
end

