-- ==== Sys2Proof/Laws/Ops.lean ====
section
/-!
SUPPORT. What the ports, the guard and the ends of a primitive can do: one lemma each way, cited instead of unfolding.
-/
namespace Sys2Proof.Machine

/-! ## Ports -/

@[simp] theorem State.rd_index (s : State) (r : Reg) : s.rd r.index = .ok (s.reg r) := by
  simp [State.rd]

theorem State.rd_of_gt (s : State) {i : Word} (h : 7 < i) : s.rd i = .error .invalidRegister := by
  simp [State.rd, Reg.ofIndex_eq_none h]

@[simp] theorem State.wr_index (s : State) (r : Reg) (v : Word) : s.wr r.index v = .ok (s.setReg r v) := by
  simp [State.wr]

theorem State.wr_of_gt (s : State) {i : Word} (v : Word) (h : 7 < i) : s.wr i v = .error .invalidRegister := by
  simp [State.wr, Reg.ofIndex_eq_none h]

theorem State.gRead_of_le (s : State) {a : Word} (h : s.reg .sb ≤ a) : s.gRead a = .ok (s.cell a) := by
  simp [State.gRead, BitVec.not_lt.2 h]

theorem State.gRead_of_lt (s : State) {a : Word} (h : a < s.reg .sb) : s.gRead a = .error .memoryGuardViolation := by
  simp [State.gRead, h]

theorem State.gWrite_of_le (s : State) {a : Word} (v : Word) (h : s.reg .sb ≤ a) :
    s.gWrite a v = .ok (s.setCell a v) := by
  simp [State.gWrite, BitVec.not_lt.2 h]

theorem State.gWrite_of_lt (s : State) {a : Word} (v : Word) (h : a < s.reg .sb) :
    s.gWrite a v = .error .memoryGuardViolation := by
  simp [State.gWrite, h]

/-- SP is register 1 (R10), the index the micro-ops use. -/
@[simp] theorem State.rd_one (s : State) : s.rd 1 = .ok (s.reg .sp) := s.rd_index .sp

@[simp] theorem State.wr_one (s : State) (v : Word) : s.wr 1 v = .ok (s.setReg .sp v) := s.wr_index .sp v

/-- All a checked read can do. -/
theorem State.rd_cases (s : State) (i : Word) :
    (∃ r : Reg, i = r.index ∧ s.rd i = .ok (s.reg r)) ∨ (7 < i ∧ s.rd i = .error .invalidRegister) := by
  rcases Reg.index_cases i with ⟨r, rfl⟩ | h
  · exact .inl ⟨r, rfl, by simp⟩
  · exact .inr ⟨h, s.rd_of_gt h⟩

/-- All a checked write can do. -/
theorem State.wr_cases (s : State) (i v : Word) :
    (∃ r : Reg, i = r.index ∧ s.wr i v = .ok (s.setReg r v)) ∨ (7 < i ∧ s.wr i v = .error .invalidRegister) := by
  rcases Reg.index_cases i with ⟨r, rfl⟩ | h
  · exact .inl ⟨r, rfl, by simp⟩
  · exact .inr ⟨h, s.wr_of_gt v h⟩

/-- All a guarded read can do. -/
theorem State.gRead_cases (s : State) (a : Word) :
    (s.reg .sb ≤ a ∧ s.gRead a = .ok (s.cell a)) ∨ (a < s.reg .sb ∧ s.gRead a = .error .memoryGuardViolation) := by
  by_cases h : a < s.reg .sb
  · exact .inr ⟨h, s.gRead_of_lt h⟩
  · exact .inl ⟨BitVec.not_lt.1 h, s.gRead_of_le (BitVec.not_lt.1 h)⟩

/-- All a guarded write can do. -/
theorem State.gWrite_cases (s : State) (a v : Word) :
    (s.reg .sb ≤ a ∧ s.gWrite a v = .ok (s.setCell a v)) ∨
      (a < s.reg .sb ∧ s.gWrite a v = .error .memoryGuardViolation) := by
  by_cases h : a < s.reg .sb
  · exact .inr ⟨h, s.gWrite_of_lt v h⟩
  · exact .inl ⟨BitVec.not_lt.1 h, s.gWrite_of_le v (BitVec.not_lt.1 h)⟩

/-! ## Ending a primitive, and two micro-ops -/

theorem finish_of_ok {p : Primitive} {s t : State} (h : p s = .ok t) : finish p s = .next t := by
  simp [finish, h]

theorem finish_of_error {p : Primitive} {s : State} {k : FaultKind} (h : p s = .error k) :
    finish p s = .next (s.takeFault k) := by
  simp [finish, h]

/-- R138: a primitive ends done, or with its fault taken in the state it started from. -/
theorem finish_cases {p : Primitive} {s t : State} (h : finish p s = .next t) :
    p s = .ok t ∨ ∃ k, p s = .error k ∧ t = s.takeFault k := by
  unfold finish at h
  split at h <;> cases h
  · exact .inl ‹_›
  · exact .inr ⟨_, ‹_›, rfl⟩

/-- A primitive always answers a next state. -/
theorem finish_next (p : Primitive) (s : State) : ∃ t, finish p s = .next t := by
  unfold finish; split <;> exact ⟨_, rfl⟩

theorem sequenceMicroOps_of_ok {p q : Primitive} {s t : State} (h : p s = .ok t) :
    sequenceMicroOps p q s = finish q t := by
  simp [sequenceMicroOps, h]

theorem sequenceMicroOps_of_error {p q : Primitive} {s : State} {k : FaultKind} (h : p s = .error k) :
    sequenceMicroOps p q s = .next (s.takeFault k) := by
  simp [sequenceMicroOps, h]

/-- R100: the first micro-op's fault ends the pair; otherwise the second ends it in the state the first left. -/
theorem sequenceMicroOps_cases {p q : Primitive} {s t : State} (h : sequenceMicroOps p q s = .next t) :
    (∃ u, p s = .ok u ∧ finish q u = .next t) ∨ ∃ k, p s = .error k ∧ t = s.takeFault k := by
  unfold sequenceMicroOps at h
  split at h
  · exact .inl ⟨_, ‹_›, h⟩
  · cases h; exact .inr ⟨_, ‹_›, rfl⟩

/-- Two micro-ops always answer a next state. -/
theorem sequenceMicroOps_next (p q : Primitive) (s : State) : ∃ t, sequenceMicroOps p q s = .next t := by
  unfold sequenceMicroOps; split
  · exact finish_next q _
  · exact ⟨_, rfl⟩

/-! ## Status -/

theorem State.status_running {s : State} : s.status = .running ↔ s.fault = none ∧ s.reg .ip ≠ 0 := by
  unfold State.status
  cases s.fault <;> simp

end Sys2Proof.Machine
end

