-- ==== Sys2Proof/Laws/Engine.lean ====
section
/-!
SUPPORT. What the fetch, the dispatch and the step can do.
-/
namespace Sys2Proof.Machine

/-- What the four reads and four decrements of the fetch come to: IP alone is lowered, by 4. -/
theorem fetch_snd (s : State) : (fetch s).2 = s.setReg .ip (s.reg .ip - 4) := by
  apply State.ext_reg
  · intro r
    have e : s.reg .ip - 1 - 1 - 1 - 1 = s.reg .ip - 4 := by bv_omega
    by_cases h : r = .ip
    · subst h; simpa [fetch, fetchCell] using e
    · simp [fetch, fetchCell, h]
  · rfl
  · rfl

/-- The record the fetch returns. -/
theorem fetch_fst (s : State) : (fetch s).1 =
    ⟨s.cell (s.reg .ip - 3), s.cell (s.reg .ip - 2), s.cell (s.reg .ip - 1), s.cell (s.reg .ip)⟩ := by
  have e2 : s.reg .ip - 1 - 1 = s.reg .ip - 2 := by bv_omega
  have e3 : s.reg .ip - 2 - 1 = s.reg .ip - 3 := by bv_omega
  simp only [fetch, fetchCell, State.reg_setReg_self, State.cell_setReg, e2, e3]

/-- R76: dispatch runs the decoded instruction, or takes InvalidOpcode. -/
theorem dispatch_cases (m : OpcodeMap) (r : Record) (s : State) :
    (∃ i, decodeWith m r = .ok i ∧ dispatch m r s = exec i s) ∨
      ((∀ k, m.value k ≠ r.operation) ∧ dispatch m r s = .next (s.takeFault .invalidOpcode)) := by
  rcases decodeWith_cases m r with ⟨k, -, h⟩ | ⟨hk, h⟩
  · exact .inl ⟨_, h, by simp [dispatch, h]⟩
  · exact .inr ⟨hk, by simp [dispatch, h]⟩

theorem stepWith_of_running (m : OpcodeMap) {s : State} (h : s.status = .running) :
    stepWith m s = dispatch m (fetch s).1 (s.setReg .ip (s.reg .ip - 4)) := by
  simp [stepWith, h, fetchAndDispatch, fetch_snd]

theorem stepWith_of_not_running (m : OpcodeMap) {s : State} (h : s.status ≠ .running) : stepWith m s = .next s := by
  unfold stepWith
  cases e : s.status <;> simp_all

/-- R70: all a step can do: nothing when not Running; else the decoded instruction, or InvalidOpcode, after the fetch. -/
theorem stepWith_cases (m : OpcodeMap) (s : State) :
    (s.status ≠ .running ∧ stepWith m s = .next s) ∨
      (s.status = .running ∧ ∃ i, decodeWith m (fetch s).1 = .ok i ∧
        stepWith m s = exec i (s.setReg .ip (s.reg .ip - 4))) ∨
      (s.status = .running ∧ (∀ k, m.value k ≠ (fetch s).1.operation) ∧
        stepWith m s = .next ((s.setReg .ip (s.reg .ip - 4)).takeFault .invalidOpcode)) := by
  by_cases h : s.status = .running
  · rw [stepWith_of_running m h]
    rcases dispatch_cases m (fetch s).1 (s.setReg .ip (s.reg .ip - 4)) with ⟨i, hi, e⟩ | ⟨hk, e⟩
    · exact .inr (.inl ⟨h, i, hi, e⟩)
    · exact .inr (.inr ⟨h, hk, e⟩)
  · exact .inl ⟨h, stepWith_of_not_running m h⟩

end Sys2Proof.Machine
end

