-- ==== Sys2Proof/Laws/Operands.lean ====
section
/-!
SUPPORT. What each operand form and each shared operation of a family gives, once: its value or the fault it raises.
-/
namespace Sys2Proof.Machine

/-! ## Sources -/

@[simp] theorem immSource_apply (v : Word) (s : State) : immSource v s = .ok v := rfl

@[simp] theorem regSource_index (r : Reg) (s : State) : regSource r.index s = .ok (s.reg r) := s.rd_index r

theorem regSource_of_gt {i : Word} (s : State) (h : 7 < i) : regSource i s = .error .invalidRegister := s.rd_of_gt h

theorem memSource_index (r : Reg) (s : State) : memSource r.index s = s.gRead (s.reg r) := by
  show (s.rd r.index >>= fun a => s.gRead a) = _
  rw [State.rd_index]; rfl

theorem memSource_of_gt {i : Word} (s : State) (h : 7 < i) : memSource i s = .error .invalidRegister := by
  show (s.rd i >>= fun a => s.gRead a) = _
  rw [s.rd_of_gt h]; rfl

theorem memSource_of_le (r : Reg) {s : State} (h : s.reg .sb ≤ s.reg r) :
    memSource r.index s = .ok (s.cell (s.reg r)) := by
  rw [memSource_index, s.gRead_of_le h]

theorem memSource_of_lt (r : Reg) {s : State} (h : s.reg r < s.reg .sb) :
    memSource r.index s = .error .memoryGuardViolation := by
  rw [memSource_index, s.gRead_of_lt h]

/-! ## Destinations -/

@[simp] theorem regDestination_index (r : Reg) (v : Word) (s : State) :
    regDestination r.index v s = .ok (s.setReg r v) := s.wr_index r v

theorem regDestination_of_gt {i : Word} (v : Word) (s : State) (h : 7 < i) :
    regDestination i v s = .error .invalidRegister := s.wr_of_gt v h

theorem absDestination_of_le {a : Word} (v : Word) {s : State} (h : s.reg .sb ≤ a) :
    absDestination a v s = .ok (s.setCell a v) := s.gWrite_of_le v h

theorem absDestination_of_lt {a : Word} (v : Word) {s : State} (h : a < s.reg .sb) :
    absDestination a v s = .error .memoryGuardViolation := s.gWrite_of_lt v h

theorem memDestination_index (r : Reg) (v : Word) (s : State) :
    memDestination r.index v s = s.gWrite (s.reg r) v := by
  show (s.rd r.index >>= fun a => s.gWrite a v) = _
  rw [State.rd_index]; rfl

theorem memDestination_of_gt {i : Word} (v : Word) (s : State) (h : 7 < i) :
    memDestination i v s = .error .invalidRegister := by
  show (s.rd i >>= fun a => s.gWrite a v) = _
  rw [s.rd_of_gt h]; rfl

theorem memDestination_of_le (r : Reg) (v : Word) {s : State} (h : s.reg .sb ≤ s.reg r) :
    memDestination r.index v s = .ok (s.setCell (s.reg r) v) := by
  rw [memDestination_index, s.gWrite_of_le v h]

theorem memDestination_of_lt (r : Reg) (v : Word) {s : State} (h : s.reg r < s.reg .sb) :
    memDestination r.index v s = .error .memoryGuardViolation := by
  rw [memDestination_index, s.gWrite_of_lt v h]

/-! ## The shared operation of each family -/

theorem move_of_ok {dst : Destination} {src : Source} {s : State} {v : Word} (h : src s = .ok v) :
    move dst src s = dst v s := by
  show (src s >>= fun v => dst v s) = _
  rw [h]; rfl

theorem move_of_error {dst : Destination} {src : Source} {s : State} {k : FaultKind} (h : src s = .error k) :
    move dst src s = .error k := by
  show (src s >>= fun v => dst v s) = _
  rw [h]; rfl

theorem arithmetic_of_error {op : AluOp} {i : Word} {src : Source} {s : State} {k : FaultKind} (h : src s = .error k) :
    arithmetic op i src s = .error k := by
  show (src s >>= _) = _
  rw [h]; rfl

theorem arithmetic_of_gt {op : AluOp} {i : Word} {src : Source} {s : State} {v : Word} (h : src s = .ok v) (hi : 7 < i) :
    arithmetic op i src s = .error .invalidRegister := by
  simp [arithmetic, h, s.rd_of_gt hi, bind, Except.bind]

/-- R75: with both operands resolved, the ALU's result is written, or its fault raised. -/
theorem arithmetic_index {op : AluOp} (r : Reg) {src : Source} {s : State} {v : Word} (h : src s = .ok v) :
    arithmetic op r.index src s = (op (s.reg r) v).map (s.setReg r) := by
  simp only [arithmetic, h, State.rd_index, bind, Except.bind, State.wr_index]
  cases op (s.reg r) v <;> rfl

theorem aluDiv_of_ne {t v : Word} (h : v ≠ 0) : aluDiv t v = .ok (t / v) := if_neg h

theorem aluDiv_zero (t : Word) : aluDiv t 0 = .error .arithmeticFault := rfl

theorem jumpRelative_of_ok {src : Source} {s : State} {k : Word} (h : src s = .ok k) :
    jumpRelative src s = .ok (s.setReg .ip (s.reg .ip - k)) := by
  simp [jumpRelative, h, bind, Except.bind]

theorem jumpRelative_of_error {src : Source} {s : State} {k : FaultKind} (h : src s = .error k) :
    jumpRelative src s = .error k := by
  simp [jumpRelative, h, bind, Except.bind]

theorem jumpAbsolute_of_ok {src : Source} {s : State} {t : Word} (h : src s = .ok t) :
    jumpAbsolute src s = .ok (s.setReg .ip t) := by
  simp [jumpAbsolute, h, bind, Except.bind]

theorem jumpAbsolute_of_error {src : Source} {s : State} {k : FaultKind} (h : src s = .error k) :
    jumpAbsolute src s = .error k := by
  simp [jumpAbsolute, h, bind, Except.bind]

theorem compare_of_error {i : Word} {src : Source} {s : State} {k : FaultKind} (h : src s = .error k) :
    compareOperands i src s = .error k := by
  simp [compareOperands, h, bind, Except.bind]

theorem compare_of_gt {i : Word} {src : Source} {s : State} {v : Word} (h : src s = .ok v) (hi : 7 < i) :
    compareOperands i src s = .error .invalidRegister := by
  simp [compareOperands, h, s.rd_of_gt hi, bind, Except.bind]

theorem compare_index (r : Reg) {src : Source} {s : State} {v : Word} (h : src s = .ok v) :
    compareOperands r.index src s = .ok (s.setReg .f (compareFlags (s.reg .f) (s.reg r) v)) := by
  simp [compareOperands, h, bind, Except.bind]

theorem ifEqual_of_eq {p : Primitive} {s : State} (h : eqFlag (s.reg .f) = true) : ifEqual p s = p s := by
  simp [ifEqual, h]

theorem ifEqual_of_ne {p : Primitive} {s : State} (h : eqFlag (s.reg .f) = false) : ifEqual p s = .ok s := by
  simp [ifEqual, h]

end Sys2Proof.Machine
end

