-- ==== Sys2Proof/Laws/Exec.lean ====
section
/-!
SUPPORT. What a source, a destination, a family's shared operation and finally any instruction can do: the inversion
lemma `exec_cases`, from which frames, fault tables and invariants follow without unfolding a meaning again.
-/
namespace Sys2Proof.Machine

/-! ## Faults of the operand forms -/

theorem immSource_error {v : Word} {s : State} {k : FaultKind} : immSource v s ≠ .error k := by
  intro h; cases h

theorem regSource_error {i : Word} {s : State} {k : FaultKind} (h : regSource i s = .error k) :
    7 < i ∧ k = .invalidRegister := by
  rcases s.rd_cases i with ⟨r, rfl, -⟩ | ⟨hi, -⟩
  · rw [regSource_index] at h; cases h
  · rw [regSource_of_gt s hi] at h; cases h; exact ⟨hi, rfl⟩

theorem memSource_error {i : Word} {s : State} {k : FaultKind} (h : memSource i s = .error k) :
    (7 < i ∧ k = .invalidRegister) ∨ k = .memoryGuardViolation := by
  rcases Reg.index_cases i with ⟨r, rfl⟩ | hi
  · rw [memSource_index] at h
    rcases s.gRead_cases (s.reg r) with ⟨-, e⟩ | ⟨-, e⟩ <;> rw [e] at h <;> cases h
    exact .inr rfl
  · rw [memSource_of_gt s hi] at h; cases h; exact .inl ⟨hi, rfl⟩

/-! ## Values of the operand forms, in the terms of `storedValue` -/

theorem some_of_immSource {x v : Word} {s : State} (h : immSource x s = .ok v) : some x = some v := by
  cases h; rfl

theorem some_of_regSource {x v : Word} {s : State} (h : regSource x s = .ok v) :
    (Reg.ofIndex x).map s.reg = some v := by
  rcases Reg.index_cases x with ⟨r, rfl⟩ | hx
  · rw [regSource_index] at h; cases h; simp
  · rw [regSource_of_gt s hx] at h; cases h

theorem some_of_memSource {x v : Word} {s : State} (h : memSource x s = .ok v) :
    (Reg.ofIndex x).map (fun q => s.cell (s.reg q)) = some v := by
  rcases Reg.index_cases x with ⟨r, rfl⟩ | hx
  · rw [memSource_index] at h
    rcases s.gRead_cases (s.reg r) with ⟨-, e⟩ | ⟨-, e⟩ <;> rw [e] at h <;> cases h
    simp
  · rw [memSource_of_gt s hx] at h; cases h

/-! ## Destinations -/

/-- A register destination writes the register its index selects, or raises InvalidRegister. -/
theorem regDestination_cases (i v : Word) (s : State) :
    (∃ r : Reg, i = r.index ∧ regDestination i v s = .ok (s.setReg r v)) ∨
      (7 < i ∧ regDestination i v s = .error .invalidRegister) := s.wr_cases i v

/-- An absolute destination writes its own address, at or above SB, or raises MemoryGuardViolation. -/
theorem absDestination_cases (x v : Word) (s : State) :
    (s.reg .sb ≤ x ∧ absDestination x v s = .ok (s.setCell x v)) ∨
      absDestination x v s = .error .memoryGuardViolation := by
  rcases s.gWrite_cases x v with h | ⟨-, h⟩
  · exact .inl h
  · exact .inr h

/-- A [Reg] destination writes the cell its register points to, at or above SB, or raises one of two faults. -/
theorem memDestination_cases (i v : Word) (s : State) :
    (∃ r : Reg, i = r.index ∧ s.reg .sb ≤ s.reg r ∧ memDestination i v s = .ok (s.setCell (s.reg r) v)) ∨
      (7 < i ∧ memDestination i v s = .error .invalidRegister) ∨
      memDestination i v s = .error .memoryGuardViolation := by
  rcases Reg.index_cases i with ⟨r, rfl⟩ | hi
  · rw [memDestination_index]
    rcases s.gWrite_cases (s.reg r) v with ⟨h, e⟩ | ⟨-, e⟩
    · exact .inl ⟨r, rfl, h, e⟩
    · exact .inr (.inr e)
  · exact .inr (.inl ⟨hi, memDestination_of_gt v s hi⟩)

/-! ## The shared operation of each family -/

/-- A move fails in its source, or does what its destination does with the source's value. -/
theorem move_cases (dst : Destination) (src : Source) (s : State) :
    (∃ k, src s = .error k ∧ move dst src s = .error k) ∨ ∃ v, src s = .ok v ∧ move dst src s = dst v s := by
  cases e : src s with
  | error k => exact .inl ⟨k, rfl, move_of_error e⟩
  | ok v => exact .inr ⟨v, rfl, move_of_ok e⟩

/-- An arithmetic instruction fails in its source, in its destination's index, in the ALU, or writes the destination. -/
theorem arithmetic_cases (op : AluOp) (i : Word) (src : Source) (s : State) :
    (∃ k, src s = .error k ∧ arithmetic op i src s = .error k) ∨
      (7 < i ∧ arithmetic op i src s = .error .invalidRegister) ∨
      ∃ (r : Reg) (v : Word), i = r.index ∧ src s = .ok v ∧
        ((∃ k, op (s.reg r) v = .error k ∧ arithmetic op i src s = .error k) ∨
          ∃ w, op (s.reg r) v = .ok w ∧ arithmetic op i src s = .ok (s.setReg r w)) := by
  cases e : src s with
  | error k => exact .inl ⟨k, rfl, arithmetic_of_error e⟩
  | ok v =>
    rcases Reg.index_cases i with ⟨r, rfl⟩ | hi
    · refine .inr (.inr ⟨r, v, rfl, rfl, ?_⟩)
      rw [arithmetic_index r e]
      cases op (s.reg r) v with
      | error k => exact .inl ⟨k, rfl, rfl⟩
      | ok w => exact .inr ⟨w, rfl, rfl⟩
    · exact .inr (.inl ⟨hi, arithmetic_of_gt e hi⟩)

theorem aluDiv_error {t v : Word} {k : FaultKind} (h : aluDiv t v = .error k) : v = 0 ∧ k = .arithmeticFault := by
  unfold aluDiv at h
  split at h <;> cases h
  exact ⟨‹_›, rfl⟩

/-- A jump fails in its source or writes IP. -/
theorem jumpRelative_cases (src : Source) (s : State) :
    (∃ k, src s = .error k ∧ jumpRelative src s = .error k) ∨
      ∃ v, src s = .ok v ∧ jumpRelative src s = .ok (s.setReg .ip (s.reg .ip - v)) := by
  cases e : src s with
  | error k => exact .inl ⟨k, rfl, jumpRelative_of_error e⟩
  | ok v => exact .inr ⟨v, rfl, jumpRelative_of_ok e⟩

theorem jumpAbsolute_cases (src : Source) (s : State) :
    (∃ k, src s = .error k ∧ jumpAbsolute src s = .error k) ∨
      ∃ v, src s = .ok v ∧ jumpAbsolute src s = .ok (s.setReg .ip v) := by
  cases e : src s with
  | error k => exact .inl ⟨k, rfl, jumpAbsolute_of_error e⟩
  | ok v => exact .inr ⟨v, rfl, jumpAbsolute_of_ok e⟩

/-- A compare fails in an operand or writes F. -/
theorem compare_cases (i : Word) (src : Source) (s : State) :
    (∃ k, src s = .error k ∧ compareOperands i src s = .error k) ∨ (7 < i ∧ compareOperands i src s = .error .invalidRegister) ∨
      ∃ v, compareOperands i src s = .ok (s.setReg .f v) := by
  cases e : src s with
  | error k => exact .inl ⟨k, rfl, compare_of_error e⟩
  | ok v =>
    rcases Reg.index_cases i with ⟨r, rfl⟩ | hi
    · exact .inr (.inr ⟨_, compare_index r e⟩)
    · exact .inr (.inl ⟨hi, compare_of_gt e hi⟩)

/-- The micro-op `add SP, 1` cannot fail. -/
theorem addRI_sp (s : State) : addRI 1 1 s = .ok (s.setReg .sp (s.reg .sp + 1)) :=
  arithmetic_index .sp (immSource_apply 1 s)

/-- The micro-op `sub SP, 1` cannot fail. -/
theorem subRI_sp (s : State) : subRI 1 1 s = .ok (s.setReg .sp (s.reg .sp - 1)) :=
  arithmetic_index .sp (immSource_apply 1 s)

/-! ## Any instruction -/

/-- When an instruction other than POP may take fault `k`: the table of R130 lists it, InvalidRegister needs a register
field above 7, and ArithmeticFault a DIV of a zero divisor into a register that exists. -/
structure MayFault (i : Instr) (s : State) (k : FaultKind) : Prop where
  listed : i.mnemonic ∈ raisedBy k
  notPop : ∀ x, i ≠ .popR x
  illFormed : k = .invalidRegister → i.wellFormed = false
  zeroDivisor : k = .arithmeticFault →
    (∃ r : Reg, i = .divRI r.index 0) ∨ ∃ r q : Reg, i = .divRR r.index q.index ∧ s.reg q = 0

/-- What an instruction makes of a state: nothing, one register or one cell written, PUSH's and POP's two writes, a
fault taken, or POP's fault with SP lowered. -/
inductive ExecEffect (i : Instr) (s : State) : State → Prop where
  | unchanged (hn : storeAddress i s = none) : ExecEffect i s s
  | register (r : Reg) (v : Word) (hn : storeAddress i s = none) (h : r ∈ writtenRegisters i) :
      ExecEffect i s (s.setReg r v)
  | store (x v : Word) (hx : storeAddress i s = some x) (hv : storedValue i s = some v) (hg : s.reg .sb ≤ x) : ExecEffect i s (s.setCell x v)
  | push (v : Word) (hi : .sp ∈ writtenRegisters i) (hx : storeAddress i s = some (s.reg .sp))
      (hv : storedValue i s = some v) (hg : s.reg .sb ≤ s.reg .sp) : ExecEffect i s ((s.setCell (s.reg .sp) v).setReg .sp (s.reg .sp + 1))
  | pop (r : Reg) (hi : i = .popR r.index) (hg : s.reg .sb ≤ s.reg .sp - 1) :
      ExecEffect i s ((s.setReg .sp (s.reg .sp - 1)).setReg r (s.cell (s.reg .sp - 1)))
  | fault (k : FaultKind) (h : MayFault i s k) : ExecEffect i s (s.takeFault k)
  | popFault (k : FaultKind) (x : Word) (hi : i = .popR x)
      (hk : k = .memoryGuardViolation ∨ (k = .invalidRegister ∧ 7 < x)) :
      ExecEffect i s ((s.setReg .sp (s.reg .sp - 1)).takeFault k)

theorem isRegisterIndex_of_gt {x : Word} (h : 7 < x) : isRegisterIndex x = false := by
  simpa [isRegisterIndex] using h

/-- One field above 7 makes an instruction ill formed. -/
theorem wellFormed_of_gt {i : Instr} {x : Word} (hx : x ∈ i.registerFields) (h : 7 < x) : i.wellFormed = false := by
  rw [Instr.wellFormed, List.all_eq_false]
  exact ⟨x, hx, by simp [isRegisterIndex_of_gt h]⟩

theorem MayFault.invalidRegister {i : Instr} {s : State} {x : Word} (h : 7 < x)
    (hl : i.mnemonic ∈ raisedBy .invalidRegister := by simp [Instr.mnemonic, raisedBy])
    (hp : ∀ y, i ≠ .popR y := by simp) (hx : x ∈ i.registerFields := by simp [Instr.registerFields]) :
    MayFault i s .invalidRegister :=
  ⟨hl, hp, fun _ => wellFormed_of_gt hx h, nofun⟩

theorem MayFault.memoryGuardViolation {i : Instr} {s : State}
    (hl : i.mnemonic ∈ raisedBy .memoryGuardViolation := by simp [Instr.mnemonic, raisedBy])
    (hp : ∀ y, i ≠ .popR y := by simp) : MayFault i s .memoryGuardViolation :=
  ⟨hl, hp, nofun, nofun⟩

/-- The faults of an instruction's immediate source: none. -/
theorem MayFault.of_immSource {i : Instr} {s : State} {v : Word} (k : FaultKind) (h : immSource v s = .error k) :
    MayFault i s k := absurd h immSource_error

/-- The faults of an instruction's register source. -/
theorem MayFault.of_regSource {i : Instr} {s : State} {x : Word} (k : FaultKind) (h : regSource x s = .error k)
    (hl : i.mnemonic ∈ raisedBy .invalidRegister := by simp [Instr.mnemonic, raisedBy])
    (hp : ∀ y, i ≠ .popR y := by simp) (hx : x ∈ i.registerFields := by simp [Instr.registerFields]) :
    MayFault i s k := by
  obtain ⟨h7, rfl⟩ := regSource_error h
  exact .invalidRegister h7 hl hp hx

/-- The faults of an instruction's [Reg] source. -/
theorem MayFault.of_memSource {i : Instr} {s : State} {x : Word} (k : FaultKind) (h : memSource x s = .error k)
    (hl : i.mnemonic ∈ raisedBy .invalidRegister := by simp [Instr.mnemonic, raisedBy])
    (hg : i.mnemonic ∈ raisedBy .memoryGuardViolation := by simp [Instr.mnemonic, raisedBy])
    (hp : ∀ y, i ≠ .popR y := by simp) (hx : x ∈ i.registerFields := by simp [Instr.registerFields]) :
    MayFault i s k := by
  rcases memSource_error h with ⟨h7, rfl⟩ | rfl
  · exact .invalidRegister h7 hl hp hx
  · exact .memoryGuardViolation hg hp

theorem mem_toList_ofIndex (r : Reg) : r ∈ (Reg.ofIndex r.index).toList := by simp

/-- A move into a register. -/
theorem ExecEffect.of_moveReg {i : Instr} {x : Word} {src : Source} {s t : State}
    (hn : storeAddress i s = none) (hw : writtenRegisters i = (Reg.ofIndex x).toList)
    (hs : ∀ k, src s = .error k → MayFault i s k)
    (hx : 7 < x → MayFault i s .invalidRegister) (h : finish (move (regDestination x) src) s = .next t) :
    ExecEffect i s t := by
  rcases move_cases (regDestination x) src s with ⟨k, hk, e⟩ | ⟨v, -, e⟩
  · rw [finish_of_error e] at h; cases h; exact .fault k (hs k hk)
  · rcases regDestination_cases x v s with ⟨r, rfl, e'⟩ | ⟨hi, e'⟩
    · rw [finish_of_ok (e.trans e')] at h; cases h
      exact .register r v hn (by rw [hw]; exact mem_toList_ofIndex r)
    · rw [finish_of_error (e.trans e')] at h; cases h; exact .fault _ (hx hi)

/-- A move into the cell at an absolute address. -/
theorem ExecEffect.of_moveAbs {i : Instr} {x : Word} {src : Source} {s t : State}
    (hw : storeAddress i s = some x) (hv : ∀ v, src s = .ok v → storedValue i s = some v)
    (hs : ∀ k, src s = .error k → MayFault i s k)
    (hg : MayFault i s .memoryGuardViolation) (h : finish (move (absDestination x) src) s = .next t) :
    ExecEffect i s t := by
  rcases move_cases (absDestination x) src s with ⟨k, hk, e⟩ | ⟨v, hsrc, e⟩
  · rw [finish_of_error e] at h; cases h; exact .fault k (hs k hk)
  · rcases absDestination_cases x v s with ⟨hle, e'⟩ | e'
    · rw [finish_of_ok (e.trans e')] at h; cases h; exact .store x v hw (hv v hsrc) hle
    · rw [finish_of_error (e.trans e')] at h; cases h; exact .fault _ hg

/-- A move into the cell a register points to. -/
theorem ExecEffect.of_moveMem {i : Instr} {x : Word} {src : Source} {s t : State}
    (hw : storeAddress i s = (Reg.ofIndex x).map s.reg) (hv : ∀ v, src s = .ok v → storedValue i s = some v)
    (hs : ∀ k, src s = .error k → MayFault i s k)
    (hx : 7 < x → MayFault i s .invalidRegister) (hg : MayFault i s .memoryGuardViolation)
    (h : finish (move (memDestination x) src) s = .next t) : ExecEffect i s t := by
  rcases move_cases (memDestination x) src s with ⟨k, hk, e⟩ | ⟨v, hsrc, e⟩
  · rw [finish_of_error e] at h; cases h; exact .fault k (hs k hk)
  · rcases memDestination_cases x v s with ⟨r, rfl, hle, e'⟩ | ⟨hi, e'⟩ | e'
    · rw [finish_of_ok (e.trans e')] at h; cases h
      exact .store _ v (by rw [hw, Reg.ofIndex_index]; rfl) (hv v hsrc) hle
    · rw [finish_of_error (e.trans e')] at h; cases h; exact .fault _ (hx hi)
    · rw [finish_of_error (e.trans e')] at h; cases h; exact .fault _ hg

/-- An arithmetic instruction. -/
theorem ExecEffect.of_arithmetic {i : Instr} {op : AluOp} {x : Word} {src : Source} {s t : State}
    (hn : storeAddress i s = none) (hw : writtenRegisters i = (Reg.ofIndex x).toList)
    (hs : ∀ k, src s = .error k → MayFault i s k)
    (hx : 7 < x → MayFault i s .invalidRegister)
    (ho : ∀ (r : Reg) (v : Word) (k : FaultKind), x = r.index → src s = .ok v → op (s.reg r) v = .error k →
      MayFault i s k)
    (h : finish (arithmetic op x src) s = .next t) : ExecEffect i s t := by
  rcases arithmetic_cases op x src s with ⟨k, hk, e⟩ | ⟨hi, e⟩ | ⟨r, v, rfl, hv, ⟨k, hk, e⟩ | ⟨w, -, e⟩⟩
  · rw [finish_of_error e] at h; cases h; exact .fault k (hs k hk)
  · rw [finish_of_error e] at h; cases h; exact .fault _ (hx hi)
  · rw [finish_of_error e] at h; cases h; exact .fault k (ho r v k rfl hv hk)
  · rw [finish_of_ok e] at h; cases h
    exact .register r w hn (by rw [hw]; exact mem_toList_ofIndex r)

/-- A jump, either form: it writes IP or fails in its operand. -/
theorem ExecEffect.of_jump {i : Instr} {p : Primitive} {s t : State} (hn : storeAddress i s = none)
    (hw : .ip ∈ writtenRegisters i)
    (hp : (∃ k, MayFault i s k ∧ p s = .error k) ∨ ∃ v, p s = .ok (s.setReg .ip v)) (h : finish p s = .next t) :
    ExecEffect i s t := by
  rcases hp with ⟨k, hk, e⟩ | ⟨v, e⟩
  · rw [finish_of_error e] at h; cases h; exact .fault k hk
  · rw [finish_of_ok e] at h; cases h; exact .register .ip v hn hw

/-- A conditional jump: the jump, or nothing. -/
theorem ExecEffect.of_ifEqual {i : Instr} {p : Primitive} {s t : State} (hn : storeAddress i s = none)
    (hw : .ip ∈ writtenRegisters i)
    (hp : (∃ k, MayFault i s k ∧ p s = .error k) ∨ ∃ v, p s = .ok (s.setReg .ip v))
    (h : finish (ifEqual p) s = .next t) : ExecEffect i s t := by
  cases e : eqFlag (s.reg .f) with
  | true => exact .of_jump hn hw (by rw [ifEqual_of_eq e]; exact hp) h
  | false => rw [finish_of_ok (ifEqual_of_ne e)] at h; cases h; exact .unchanged hn

theorem relative_jump {i : Instr} {src : Source} {s : State} (hs : ∀ k, src s = .error k → MayFault i s k) :
    (∃ k, MayFault i s k ∧ jumpRelative src s = .error k) ∨ ∃ v, jumpRelative src s = .ok (s.setReg .ip v) := by
  rcases jumpRelative_cases src s with ⟨k, hk, e⟩ | ⟨v, -, e⟩
  · exact .inl ⟨k, hs k hk, e⟩
  · exact .inr ⟨_, e⟩

theorem absolute_jump {i : Instr} {src : Source} {s : State} (hs : ∀ k, src s = .error k → MayFault i s k) :
    (∃ k, MayFault i s k ∧ jumpAbsolute src s = .error k) ∨ ∃ v, jumpAbsolute src s = .ok (s.setReg .ip v) := by
  rcases jumpAbsolute_cases src s with ⟨k, hk, e⟩ | ⟨v, -, e⟩
  · exact .inl ⟨k, hs k hk, e⟩
  · exact .inr ⟨_, e⟩

/-- A compare. -/
theorem ExecEffect.of_compare {i : Instr} {x : Word} {src : Source} {s t : State} (hn : storeAddress i s = none)
    (hw : .f ∈ writtenRegisters i) (hs : ∀ k, src s = .error k → MayFault i s k) (hx : 7 < x → MayFault i s .invalidRegister)
    (h : finish (compareOperands x src) s = .next t) : ExecEffect i s t := by
  rcases compare_cases x src s with ⟨k, hk, e⟩ | ⟨hi, e⟩ | ⟨v, e⟩
  · rw [finish_of_error e] at h; cases h; exact .fault k (hs k hk)
  · rw [finish_of_error e] at h; cases h; exact .fault _ (hx hi)
  · rw [finish_of_ok e] at h; cases h; exact .register .f v hn hw

/-- A push: the micro-op `mov [SP], source`, then `add SP, 1`. -/
theorem ExecEffect.of_push {i : Instr} {src : Source} {s t : State} (hw : .sp ∈ writtenRegisters i)
    (hx : storeAddress i s = some (s.reg .sp)) (hv : ∀ v, src s = .ok v → storedValue i s = some v)
    (hs : ∀ k, src s = .error k → MayFault i s k)
    (hg : MayFault i s .memoryGuardViolation)
    (h : sequenceMicroOps (move (memDestination Reg.sp.index) src) (addRI 1 1) s = .next t) : ExecEffect i s t := by
  rcases move_cases (memDestination Reg.sp.index) src s with ⟨k, hk, e⟩ | ⟨v, hsrc, e⟩
  · rw [sequenceMicroOps_of_error e] at h; cases h; exact .fault k (hs k hk)
  · rw [memDestination_index] at e
    rcases s.gWrite_cases (s.reg .sp) v with ⟨hle, e'⟩ | ⟨-, e'⟩
    · rw [sequenceMicroOps_of_ok (e.trans e'), finish_of_ok (addRI_sp _)] at h; cases h
      exact .push v hw hx (hv v hsrc) hle
    · rw [sequenceMicroOps_of_error (e.trans e')] at h; cases h; exact .fault _ hg

/-- A pop: the micro-op `sub SP, 1`, then `mov d, [SP]`. -/
theorem ExecEffect.of_pop {x : Word} {s t : State}
    (h : sequenceMicroOps (subRI 1 1) (movRM x Reg.sp.index) s = .next t) : ExecEffect (.popR x) s t := by
  rw [sequenceMicroOps_of_ok (subRI_sp s), movRM] at h
  have hm := memSource_index .sp (s.setReg .sp (s.reg .sp - 1))
  rw [State.reg_setReg_self] at hm
  rcases State.gRead_cases (s.setReg .sp (s.reg .sp - 1)) (s.reg .sp - 1) with ⟨hle, e⟩ | ⟨-, e⟩
  · have em := move_of_ok (dst := regDestination x) (hm.trans e)
    rcases regDestination_cases x (s.cell (s.reg .sp - 1)) (s.setReg .sp (s.reg .sp - 1)) with
      ⟨r, rfl, e'⟩ | ⟨hi, e'⟩
    · rw [finish_of_ok (em.trans e')] at h; cases h
      exact .pop r rfl (by simpa using hle)
    · rw [finish_of_error (em.trans e')] at h; cases h
      exact .popFault _ x rfl (.inr ⟨rfl, hi⟩)
  · rw [finish_of_error (move_of_error (hm.trans e))] at h; cases h
    exact .popFault _ x rfl (.inl rfl)

/-- Everything an instruction can do, from every state. -/
theorem exec_cases {i : Instr} {s t : State} (h : exec i s = .next t) : ExecEffect i s t := by
  cases i with
  | movRI => exact .of_moveReg rfl rfl MayFault.of_immSource (fun h => .invalidRegister h) h
  | movRR => exact .of_moveReg rfl rfl (fun k h => .of_regSource k h) (fun h => .invalidRegister h) h
  | movRM => exact .of_moveReg rfl rfl (fun k h => .of_memSource k h) (fun h => .invalidRegister h) h
  | movAI => exact .of_moveAbs rfl (fun _ h => some_of_immSource h) MayFault.of_immSource .memoryGuardViolation h
  | movAR => exact .of_moveAbs rfl (fun _ h => some_of_regSource h) (fun k h => .of_regSource k h) .memoryGuardViolation h
  | movAM => exact .of_moveAbs rfl (fun _ h => some_of_memSource h) (fun k h => .of_memSource k h) .memoryGuardViolation h
  | movMI => exact .of_moveMem rfl (fun _ h => some_of_immSource h) MayFault.of_immSource (fun h => .invalidRegister h) .memoryGuardViolation h
  | movMR => exact .of_moveMem rfl (fun _ h => some_of_regSource h) (fun k h => .of_regSource k h) (fun h => .invalidRegister h) .memoryGuardViolation h
  | movMM => exact .of_moveMem rfl (fun _ h => some_of_memSource h) (fun k h => .of_memSource k h) (fun h => .invalidRegister h) .memoryGuardViolation h
  | addRI => exact .of_arithmetic rfl rfl MayFault.of_immSource (fun h => .invalidRegister h) (fun _ _ _ _ _ e => by cases e) h
  | addRR => exact .of_arithmetic rfl rfl (fun k h => .of_regSource k h) (fun h => .invalidRegister h) (fun _ _ _ _ _ e => by cases e) h
  | subRI => exact .of_arithmetic rfl rfl MayFault.of_immSource (fun h => .invalidRegister h) (fun _ _ _ _ _ e => by cases e) h
  | subRR => exact .of_arithmetic rfl rfl (fun k h => .of_regSource k h) (fun h => .invalidRegister h) (fun _ _ _ _ _ e => by cases e) h
  | mulRI => exact .of_arithmetic rfl rfl MayFault.of_immSource (fun h => .invalidRegister h) (fun _ _ _ _ _ e => by cases e) h
  | mulRR => exact .of_arithmetic rfl rfl (fun k h => .of_regSource k h) (fun h => .invalidRegister h) (fun _ _ _ _ _ e => by cases e) h
  | divRI x y =>
    refine .of_arithmetic rfl rfl MayFault.of_immSource (fun h => .invalidRegister h) (fun r v k hr hv hk => ?_) h
    obtain ⟨rfl, rfl⟩ := aluDiv_error hk
    cases hv
    exact ⟨by simp [Instr.mnemonic, raisedBy], by simp, nofun, fun _ => .inl ⟨r, by rw [hr]⟩⟩
  | divRR x y =>
    refine .of_arithmetic rfl rfl (fun k h => .of_regSource k h) (fun h => .invalidRegister h) (fun r v k hr hv hk => ?_) h
    obtain ⟨rfl, rfl⟩ := aluDiv_error hk
    rcases Reg.index_cases y with ⟨q, rfl⟩ | hy
    · rw [regSource_index] at hv
      exact ⟨by simp [Instr.mnemonic, raisedBy], by simp, nofun, fun _ => .inr ⟨r, q, by rw [hr], Except.ok.inj hv⟩⟩
    · rw [regSource_of_gt s hy] at hv; cases hv
  | pushI => exact .of_push (by simp [writtenRegisters]) rfl (fun _ h => some_of_immSource h) MayFault.of_immSource .memoryGuardViolation h
  | pushR => exact .of_push (by simp [writtenRegisters]) rfl (fun _ h => some_of_regSource h) (fun k h => .of_regSource k h) .memoryGuardViolation h
  | popR => exact .of_pop h
  | jmprI => exact .of_jump rfl (by simp [writtenRegisters]) (relative_jump MayFault.of_immSource) h
  | jmprR => exact .of_jump rfl (by simp [writtenRegisters]) (relative_jump (fun k h => .of_regSource k h)) h
  | jmpaI => exact .of_jump rfl (by simp [writtenRegisters]) (absolute_jump MayFault.of_immSource) h
  | jmpaR => exact .of_jump rfl (by simp [writtenRegisters]) (absolute_jump (fun k h => .of_regSource k h)) h
  | cmpRR => exact .of_compare rfl (by simp [writtenRegisters]) (fun k h => .of_regSource k h) (fun h => .invalidRegister h) h
  | cmpRI => exact .of_compare rfl (by simp [writtenRegisters]) MayFault.of_immSource (fun h => .invalidRegister h) h
  | jerI => exact .of_ifEqual rfl (by simp [writtenRegisters]) (relative_jump MayFault.of_immSource) h
  | jerR => exact .of_ifEqual rfl (by simp [writtenRegisters]) (relative_jump (fun k h => .of_regSource k h)) h
  | jeaI => exact .of_ifEqual rfl (by simp [writtenRegisters]) (absolute_jump MayFault.of_immSource) h
  | jeaR => exact .of_ifEqual rfl (by simp [writtenRegisters]) (absolute_jump (fun k h => .of_regSource k h)) h

/-- What an instruction that stores leaves when it raises nothing: the guard admitted its `storeAddress`, the cell there
holds its `storedValue`, every other cell and SB are as before. -/
theorem exec_stores {i : Instr} {s t : State} {x v : Word} (hx : storeAddress i s = some x)
    (hv : storedValue i s = some v) (h : exec i s = .next t) (ht : t.fault = none) :
    s.reg .sb ≤ x ∧ t.cell x = v ∧ (∀ y, y ≠ x → t.cell y = s.cell y) ∧ t.reg .sb = s.reg .sb := by
  cases exec_cases h with
  | unchanged hn => rw [hn] at hx; cases hx
  | register r w hn => rw [hn] at hx; cases hx
  | store y w hy hw hg =>
    obtain rfl := Option.some.inj (hx.symm.trans hy)
    obtain rfl := Option.some.inj (hv.symm.trans hw)
    exact ⟨hg, s.cell_setCell_self x v, fun _ => s.cell_setCell_of_ne v, rfl⟩
  | push w hi hy hw hg =>
    obtain rfl := Option.some.inj (hx.symm.trans hy)
    obtain rfl := Option.some.inj (hv.symm.trans hw)
    exact ⟨hg, s.cell_setCell_self _ v, fun _ => s.cell_setCell_of_ne v, rfl⟩
  | pop r hi => subst hi; cases hx
  | fault => cases ht
  | popFault => cases ht

end Sys2Proof.Machine
end

