-- ==== Sys2Proof/Laws/Frames.lean ====
section
/-!
SUPPORT. The frame predicates of Safety.lean hold of the raw updates, and so of the primitives that make one.
-/
namespace Sys2Proof.Machine

theorem onlyRegister_setReg (s : State) (r : Reg) (v : Word) : OnlyRegister r v s (s.setReg r v) :=
  ⟨s.reg_setReg_self r v, fun _ h => s.reg_setReg_of_ne v h, fun _ => rfl, rfl⟩

theorem onlyCell_setCell (s : State) (x v : Word) : OnlyCell x v s (s.setCell x v) :=
  ⟨s.cell_setCell_self x v, fun _ h => s.cell_setCell_of_ne v h, fun _ => rfl, rfl⟩

theorem onlyFault_takeFault (s : State) (k : FaultKind) : OnlyFault k s (s.takeFault k) :=
  ⟨rfl, fun _ => rfl, fun _ => rfl⟩

/-- A primitive that writes one register answers a next state in which only that register changed. -/
theorem finish_onlyRegister {p : Primitive} {s : State} {r : Reg} {v : Word} (h : p s = .ok (s.setReg r v)) :
    ∃ t, finish p s = .next t ∧ OnlyRegister r v s t :=
  ⟨_, finish_of_ok h, onlyRegister_setReg s r v⟩

/-- A primitive that writes one cell answers a next state in which only that cell changed. -/
theorem finish_onlyCell {p : Primitive} {s : State} {x v : Word} (h : p s = .ok (s.setCell x v)) :
    ∃ t, finish p s = .next t ∧ OnlyCell x v s t :=
  ⟨_, finish_of_ok h, onlyCell_setCell s x v⟩

/-- A primitive that raises answers a next state in which only the latch changed (R138). -/
theorem finish_onlyFault {p : Primitive} {s : State} {k : FaultKind} (h : p s = .error k) :
    ∃ t, finish p s = .next t ∧ OnlyFault k s t :=
  ⟨_, finish_of_error h, onlyFault_takeFault s k⟩

end Sys2Proof.Machine
end

