-- ==== Sys2Proof/Laws/PerInstr.lean ====
section
/-!
SUPPORT. A fact about every instruction as syntax, one lemma per constructor: the shape of its encoding (R54, R55).
-/
namespace Sys2Proof.Laws.EncodedShape

/-- Under every `OPCODE_MAP` an instruction's encoding starts with its mnemonic's value, ends with 0, and every byte it
uses as a register index stands in operand1 or operand2 (R54, R55, R61). -/
def Statement (i : Instr) : Prop :=
  ∀ m : OpcodeMap, (encodeWith m i).operation = m.value i.mnemonic ∧ (encodeWith m i).operand3 = 0 ∧
    ∀ x ∈ i.registerFields, x = (encodeWith m i).operand1 ∨ x = (encodeWith m i).operand2

theorem movRI (d v : Word) : Statement (.movRI d v) := by
  intro m; simp [encodeWith, Instr.mnemonic, Instr.registerFields]
theorem movRR (d v : Word) : Statement (.movRR d v) := by
  intro m; simp [encodeWith, Instr.mnemonic, Instr.registerFields]
theorem movRM (d v : Word) : Statement (.movRM d v) := by
  intro m; simp [encodeWith, Instr.mnemonic, Instr.registerFields]
theorem movAI (d v : Word) : Statement (.movAI d v) := by
  intro m; simp [encodeWith, Instr.mnemonic, Instr.registerFields]
theorem movAR (d v : Word) : Statement (.movAR d v) := by
  intro m; simp [encodeWith, Instr.mnemonic, Instr.registerFields]
theorem movAM (d v : Word) : Statement (.movAM d v) := by
  intro m; simp [encodeWith, Instr.mnemonic, Instr.registerFields]
theorem movMI (d v : Word) : Statement (.movMI d v) := by
  intro m; simp [encodeWith, Instr.mnemonic, Instr.registerFields]
theorem movMR (d v : Word) : Statement (.movMR d v) := by
  intro m; simp [encodeWith, Instr.mnemonic, Instr.registerFields]
theorem movMM (d v : Word) : Statement (.movMM d v) := by
  intro m; simp [encodeWith, Instr.mnemonic, Instr.registerFields]
theorem addRI (d v : Word) : Statement (.addRI d v) := by
  intro m; simp [encodeWith, Instr.mnemonic, Instr.registerFields]
theorem addRR (d v : Word) : Statement (.addRR d v) := by
  intro m; simp [encodeWith, Instr.mnemonic, Instr.registerFields]
theorem subRI (d v : Word) : Statement (.subRI d v) := by
  intro m; simp [encodeWith, Instr.mnemonic, Instr.registerFields]
theorem subRR (d v : Word) : Statement (.subRR d v) := by
  intro m; simp [encodeWith, Instr.mnemonic, Instr.registerFields]
theorem mulRI (d v : Word) : Statement (.mulRI d v) := by
  intro m; simp [encodeWith, Instr.mnemonic, Instr.registerFields]
theorem mulRR (d v : Word) : Statement (.mulRR d v) := by
  intro m; simp [encodeWith, Instr.mnemonic, Instr.registerFields]
theorem divRI (d v : Word) : Statement (.divRI d v) := by
  intro m; simp [encodeWith, Instr.mnemonic, Instr.registerFields]
theorem divRR (d v : Word) : Statement (.divRR d v) := by
  intro m; simp [encodeWith, Instr.mnemonic, Instr.registerFields]
theorem pushI (x : Word) : Statement (.pushI x) := by
  intro m; simp [encodeWith, Instr.mnemonic, Instr.registerFields]
theorem pushR (x : Word) : Statement (.pushR x) := by
  intro m; simp [encodeWith, Instr.mnemonic, Instr.registerFields]
theorem popR (x : Word) : Statement (.popR x) := by
  intro m; simp [encodeWith, Instr.mnemonic, Instr.registerFields]
theorem jmprI (x : Word) : Statement (.jmprI x) := by
  intro m; simp [encodeWith, Instr.mnemonic, Instr.registerFields]
theorem jmprR (x : Word) : Statement (.jmprR x) := by
  intro m; simp [encodeWith, Instr.mnemonic, Instr.registerFields]
theorem jmpaI (x : Word) : Statement (.jmpaI x) := by
  intro m; simp [encodeWith, Instr.mnemonic, Instr.registerFields]
theorem jmpaR (x : Word) : Statement (.jmpaR x) := by
  intro m; simp [encodeWith, Instr.mnemonic, Instr.registerFields]
theorem cmpRR (d v : Word) : Statement (.cmpRR d v) := by
  intro m; simp [encodeWith, Instr.mnemonic, Instr.registerFields]
theorem cmpRI (d v : Word) : Statement (.cmpRI d v) := by
  intro m; simp [encodeWith, Instr.mnemonic, Instr.registerFields]
theorem jerI (x : Word) : Statement (.jerI x) := by
  intro m; simp [encodeWith, Instr.mnemonic, Instr.registerFields]
theorem jerR (x : Word) : Statement (.jerR x) := by
  intro m; simp [encodeWith, Instr.mnemonic, Instr.registerFields]
theorem jeaI (x : Word) : Statement (.jeaI x) := by
  intro m; simp [encodeWith, Instr.mnemonic, Instr.registerFields]
theorem jeaR (x : Word) : Statement (.jeaR x) := by
  intro m; simp [encodeWith, Instr.mnemonic, Instr.registerFields]

end Sys2Proof.Laws.EncodedShape
end

