-- ==== Sys2Proof/Tests/Slice0.lean ====
section
/-!
SUPPORT. Tests with expected results from spec/ alone (the vectors V<n> and S<n> of 95_test_vectors.md, the encoding table
R57), and for each obligation with hypotheses a named witness that meets them, each clause at a boundary value.
-/
namespace Sys2Proof.Tests
open Sys2Proof Sys2Proof.Machine

/-! ## Helpers -/

/-- The setting of 95_test_vectors.md section 2: a 2-instruction program, so IP = 7, SP = SB = 8. -/
def base : State := ⟨⟨7, 8, 8, 0, 0, 0, 0, 0⟩, [], none⟩

/-- The state an outcome answers, if it answers one. -/
def nextState : Host.Outcome State Fault Refusal → Option State
  | .next t => some t
  | .fault _ => none
  | .refused _ => none

/-- The session a transaction answers, if it answers one. -/
def nextSession : Host.Outcome Session Fault Refusal → Option Session
  | .next y => some y
  | .fault _ => none
  | .refused _ => none

/-- `jmpa 0` (S1), as a program of `n` of them. -/
def halts (n : Nat) : List Record := List.replicate n ⟨0x16, 0x00, 0x00, 0x00⟩

/-- One step of the instruction whose 32-bit view is `w`, placed at IP. -/
def ran (s : State) (w : Nat) : Option State := nextState (step (s.withFetchWord 32 w))

/-- `jmpa 0` at the entry address 7 of `base`. -/
def atJmpaZero : State := base.withFetchWord 32 0x16000000

/-- A pair that differs below the stack base 8 only. -/
def otherBelow : State := base.setCell 7 0x55

/-! ## Well-formedness: each check refuses an ill-formed term -/

/-- R53, R10: 7 is the last register index. -/
theorem test_wellFormed_accepts :
    (Instr.movRM 7 0).wellFormed = true ∧ (Instr.movAI 255 255).wellFormed = true := by decide

/-- A Reg destination. -/
theorem test_wellFormed_refuses_destination : (Instr.movRI 8 0).wellFormed = false := by decide

/-- A Reg source. -/
theorem test_wellFormed_refuses_source : (Instr.addRR 3 8).wellFormed = false := by decide

/-- A [Reg] source and a [Reg] destination. -/
theorem test_wellFormed_refuses_indirect :
    (Instr.movAM 20 255).wellFormed = false ∧ (Instr.movMI 8 1).wellFormed = false := by decide

/-- The register of a one-operand instruction. -/
theorem test_wellFormed_refuses_single :
    (Instr.popR 9).wellFormed = false ∧ (Instr.jmprR 8).wellFormed = false ∧ (Instr.jeaR 8).wellFormed = false := by
  decide

/-! ## Decoding: one word per instruction, written out from R50, R51 and the table of R57 -/

/-- R80 V10, mov A, 250: `00 03 FA 00`. -/
theorem test_decode_movRI :
    decodeTableWord 32 0b00000000000000111111101000000000 = some (.movRI 3 250) := by decide

/-- R81 V15, mov C, SP: `01 05 01 00`. -/
theorem test_decode_movRR :
    decodeTableWord 32 0b00000001000001010000000100000000 = some (.movRR 5 1) := by decide

/-- R82 V19, mov D, [C]: `02 06 05 00`. -/
theorem test_decode_movRM :
    decodeTableWord 32 0b00000010000001100000010100000000 = some (.movRM 6 5) := by decide

/-- R83 V24, mov [255], 1: `03 FF 01 00`. -/
theorem test_decode_movAI :
    decodeTableWord 32 0b00000011111111110000000100000000 = some (.movAI 255 1) := by decide

/-- R84 V25, mov [200], A: `04 C8 03 00`. -/
theorem test_decode_movAR :
    decodeTableWord 32 0b00000100110010000000001100000000 = some (.movAR 200 3) := by decide

/-- R85 V27, mov [21], [B]: `05 15 04 00`. -/
theorem test_decode_movAM :
    decodeTableWord 32 0b00000101000101010000010000000000 = some (.movAM 21 4) := by decide

/-- R86 V30, mov [C], 42: `06 05 2A 00`. -/
theorem test_decode_movMI :
    decodeTableWord 32 0b00000110000001010010101000000000 = some (.movMI 5 42) := by decide

/-- R87 V32, mov [A], B: `07 03 04 00`. -/
theorem test_decode_movMR :
    decodeTableWord 32 0b00000111000000110000010000000000 = some (.movMR 3 4) := by decide

/-- R88 V34, mov [A], [B]: `08 03 04 00`. -/
theorem test_decode_movMM :
    decodeTableWord 32 0b00001000000000110000010000000000 = some (.movMM 3 4) := by decide

/-- R90 V40, add A, 10: `09 03 0A 00`. -/
theorem test_decode_addRI :
    decodeTableWord 32 0b00001001000000110000101000000000 = some (.addRI 3 10) := by decide

/-- R91 P1, add B, A: `0A 04 03 00`. -/
theorem test_decode_addRR :
    decodeTableWord 32 0b00001010000001000000001100000000 = some (.addRR 4 3) := by decide

/-- R92 V44, sub A, 1: `0B 03 01 00`. -/
theorem test_decode_subRI :
    decodeTableWord 32 0b00001011000000110000000100000000 = some (.subRI 3 1) := by decide

/-- R93 V45, sub A, B: `0C 03 04 00`. -/
theorem test_decode_subRR :
    decodeTableWord 32 0b00001100000000110000010000000000 = some (.subRR 3 4) := by decide

/-- R94 V48, mul A, 2: `0D 03 02 00`. -/
theorem test_decode_mulRI :
    decodeTableWord 32 0b00001101000000110000001000000000 = some (.mulRI 3 2) := by decide

/-- R95 V50, mul A, B: `0E 03 04 00`. -/
theorem test_decode_mulRR :
    decodeTableWord 32 0b00001110000000110000010000000000 = some (.mulRR 3 4) := by decide

/-- R96 V52, div A, 7: `0F 03 07 00`. -/
theorem test_decode_divRI :
    decodeTableWord 32 0b00001111000000110000011100000000 = some (.divRI 3 7) := by decide

/-- R97 V56, div A, B: `10 03 04 00`. -/
theorem test_decode_divRR :
    decodeTableWord 32 0b00010000000000110000010000000000 = some (.divRR 3 4) := by decide

/-- R101 V70, push 7: `11 07 00 00`. -/
theorem test_decode_pushI :
    decodeTableWord 32 0b00010001000001110000000000000000 = some (.pushI 7) := by decide

/-- R102 V71, push A: `12 03 00 00`. -/
theorem test_decode_pushR :
    decodeTableWord 32 0b00010010000000110000000000000000 = some (.pushR 3) := by decide

/-- R103 V77, pop A: `13 03 00 00`. -/
theorem test_decode_popR :
    decodeTableWord 32 0b00010011000000110000000000000000 = some (.popR 3) := by decide

/-- R110 V92, jmpr 236: `14 EC 00 00`. -/
theorem test_decode_jmprI :
    decodeTableWord 32 0b00010100111011000000000000000000 = some (.jmprI 236) := by decide

/-- R111 V95, jmpr A: `15 03 00 00`. -/
theorem test_decode_jmprR :
    decodeTableWord 32 0b00010101000000110000000000000000 = some (.jmprR 3) := by decide

/-- R112 V99, jmpa 103: `16 67 00 00`. -/
theorem test_decode_jmpaI :
    decodeTableWord 32 0b00010110011001110000000000000000 = some (.jmpaI 103) := by decide

/-- R113 V101, jmpa of register index 200: `17 C8 00 00`. -/
theorem test_decode_jmpaR :
    decodeTableWord 32 0b00010111110010000000000000000000 = some (.jmpaR 200) := by decide

/-- R116 V120, cmp A, B: `18 03 04 00`. -/
theorem test_decode_cmpRR :
    decodeTableWord 32 0b00011000000000110000010000000000 = some (.cmpRR 3 4) := by decide

/-- R117 V125, cmp A, 255: `19 03 FF 00`. -/
theorem test_decode_cmpRI :
    decodeTableWord 32 0b00011001000000111111111100000000 = some (.cmpRI 3 255) := by decide

/-- R120 V102, jer 12: `1A 0C 00 00`. -/
theorem test_decode_jerI :
    decodeTableWord 32 0b00011010000011000000000000000000 = some (.jerI 12) := by decide

/-- R121 V105, jer A: `1B 03 00 00`. -/
theorem test_decode_jerR :
    decodeTableWord 32 0b00011011000000110000000000000000 = some (.jerR 3) := by decide

/-- R122, jea 0x81: `1C 81 00 00`. -/
theorem test_decode_jeaI :
    decodeTableWord 32 0b00011100100000010000000000000000 = some (.jeaI 0x81) := by decide

/-- R123 V109, jea A: `1D 03 00 00`. -/
theorem test_decode_jeaR :
    decodeTableWord 32 0b00011101000000110000000000000000 = some (.jeaR 3) := by decide

/-- V5: `1E 00 00 00` is the first byte of no mnemonic (R58). -/
theorem test_decode_refuses_1E : decodeTableWord 32 0b00011110000000000000000000000000 = none := by decide

/-- V6: nonzero unused operand3 (R55). -/
theorem test_decode_ignores_unused : decodeTableWord 32 0x09030A77 = some (.addRI 3 10) := by decide

/-- R50: three bytes are no instruction, and the decoder says so by name. -/
theorem test_decode_refuses_three_bytes : decodeBytes [0x09, 0x03, 0x0A] = .error (.notFourBytes 3) := rfl

/-! ## Steps: one instruction on a small state -/

/-- V11: `00 07 FF 00`. -/
theorem test_mov_ri_writes_F_whole :
    (ran base 0x0007FF00).map (fun t => (t.reg .f, t.reg .ip)) = some (0xFF, 3) := by decide

/-- V12: `00 00 00 00`. -/
theorem test_mov_ri_to_ip_halts :
    (ran base 0x00000000).map (fun t => (t.reg .ip, t.status)) = some (0, .halted) := by decide

/-- V16: `01 03 00 00`. -/
theorem test_mov_rr_reads_the_post_fetch_ip :
    (ran base 0x01030000).map (fun t => (t.reg .a, t.fault)) = some (3, none) := by decide

/-- V21: `02 06 05 00`. -/
theorem test_mov_rm_at_the_boundary :
    (ran (base.setReg .c 8) 0x02060500).map (fun t => (t.reg .d, t.fault)) = some (0, none) := by decide

/-- V22: `02 08 05 00`. -/
theorem test_mov_rm_guard_before_index :
    (ran (base.setReg .c 3) 0x02080500).map (fun t => (t.reg .ip, t.fault)) = some (3, some .memoryGuardViolation) := by decide

/-- V24: `03 FF 01 00`. -/
theorem test_mov_ai_at_the_top :
    (ran base 0x03FF0100).map (fun t => (t.cell 255, t.fault)) = some (1, none) := by decide

/-- V24: `03 07 01 00`. -/
theorem test_mov_ai_below_stack_base :
    (ran base 0x03070100).map (fun t => (t.cell 7, t.fault)) = some (0x00, some .memoryGuardViolation) := by decide

/-- V25: `04 C8 03 00`. -/
theorem test_mov_ar_stores_the_register :
    (ran (base.setReg .a 7) 0x04C80300).map (fun t => (t.cell 200, t.fault)) = some (7, none) := by decide

/-- V27: `05 15 04 00`. -/
theorem test_mov_am_copies :
    (ran ((base.setReg .b 20).setCell 20 0x55) 0x05150400).map (fun t => (t.cell 21, t.cell 20)) = some (0x55, 0x55) := by decide

/-- V29: `05 15 04 00`. -/
theorem test_mov_am_guards_the_source :
    (ran (base.setReg .b 2) 0x05150400).map (fun t => (t.cell 21, t.fault)) = some (0, some .memoryGuardViolation) := by decide

/-- V30: `06 05 2A 00`. -/
theorem test_mov_mi_stores_through_the_register :
    (ran (base.setReg .c 41) 0x06052A00).map (fun t => (t.cell 41, t.reg .c)) = some (42, 41) := by decide

/-- V33: `07 03 03 00`. -/
theorem test_mov_mr_same_register :
    (ran (base.setReg .a 100) 0x07030300).map (fun t => (t.cell 100, t.fault)) = some (100, none) := by decide

/-- V34: `08 03 04 00`. -/
theorem test_mov_mm_copies :
    (ran (((base.setReg .a 30).setReg .b 20).setCell 20 0x55) 0x08030400).map (fun t => (t.cell 30, t.fault)) = some (0x55, none) := by decide

/-- V40, S3: `09 03 0A 00`. -/
theorem test_add_ri_wraps :
    (ran (base.setReg .a 250) 0x09030A00).map (fun t => (t.reg .a, t.reg .f)) = some (4, 0) := by decide

/-- V61: `09 07 01 00`. -/
theorem test_add_ri_on_F_is_byte_arithmetic :
    (ran (base.setReg .f 1) 0x09070100).map (fun t => (t.reg .f, t.fault)) = some (2, none) := by decide

/-- V42: `0A 03 03 00`. -/
theorem test_add_rr_same_register :
    (ran (base.setReg .a 200) 0x0A030300).map (fun t => (t.reg .a, t.fault)) = some (144, none) := by decide

/-- V44: `0B 03 01 00`. -/
theorem test_sub_ri_wraps :
    (ran (base.setReg .a 0) 0x0B030100).map (fun t => (t.reg .a, t.fault)) = some (255, none) := by decide

/-- V45: `0C 03 04 00`. -/
theorem test_sub_rr_order :
    (ran ((base.setReg .a 5).setReg .b 7) 0x0C030400).map (fun t => (t.reg .a, t.reg .b)) = some (254, 7) := by decide

/-- V49: `0D 03 10 00`. -/
theorem test_mul_ri_wraps_to_zero :
    (ran (base.setReg .a 16) 0x0D031000).map (fun t => (t.reg .a, t.fault)) = some (0, none) := by decide

/-- V51: `0E 03 03 00`. -/
theorem test_mul_rr_wraps :
    (ran (base.setReg .a 255) 0x0E030300).map (fun t => (t.reg .a, t.fault)) = some (1, none) := by decide

/-- V52: `0F 03 07 00`. -/
theorem test_div_ri_rounds_down :
    (ran (base.setReg .a 200) 0x0F030700).map (fun t => (t.reg .a, t.fault)) = some (28, none) := by decide

/-- V59: `0F 08 00 00`. -/
theorem test_div_ri_index_before_zero :
    (ran base 0x0F080000).map (fun t => (t.reg .ip, t.fault)) = some (3, some .invalidRegister) := by decide

/-- V56: `10 03 04 00`. -/
theorem test_div_rr_by_zero :
    (ran (base.setReg .a 5) 0x10030400).map (fun t => (t.reg .a, t.fault)) = some (5, some .arithmeticFault) := by decide

/-- V74: `11 01 00 00`. -/
theorem test_push_i_wraps_sp :
    (ran (base.setReg .sp 255) 0x11010000).map (fun t => (t.cell 255, t.reg .sp)) = some (1, 0) := by decide

/-- V75: `11 01 00 00`. -/
theorem test_push_i_below_stack_base :
    (ran (base.setReg .sp 0) 0x11010000).map (fun t => (t.reg .sp, t.fault)) = some (0, some .memoryGuardViolation) := by decide

/-- V72: `12 01 00 00`. -/
theorem test_push_r_of_sp :
    (ran (base.setReg .sp 10) 0x12010000).map (fun t => (t.cell 10, t.reg .sp)) = some (10, 11) := by decide

/-- V80: `13 01 00 00`. -/
theorem test_pop_r_into_sp :
    (ran ((base.setReg .sp 9).setCell 8 77) 0x13010000).map (fun t => (t.reg .sp, t.fault)) = some (77, none) := by decide

/-- V78: `13 03 00 00`. -/
theorem test_pop_r_on_empty_stack :
    (ran base 0x13030000).map (fun t => (t.reg .sp, t.fault)) = some (7, some .memoryGuardViolation) := by decide

/-- V92: `14 EC 00 00`. -/
theorem test_jmpr_i_backwards :
    (ran base 0x14EC0000).map (fun t => (t.reg .ip, t.fault)) = some (23, none) := by decide

/-- V96: `15 00 00 00`. -/
theorem test_jmpr_r_of_ip_halts :
    (ran (base.setReg .ip 19) 0x15000000).map (fun t => (t.reg .ip, t.status)) = some (0, .halted) := by decide

/-- V7: `16 00 55 66`. -/
theorem test_jmpa_i_unused_fields_ignored :
    (ran base 0x16005566).map (fun t => (t.reg .ip, t.status)) = some (0, .halted) := by decide

/-- V101: `17 C8 00 00`. -/
theorem test_jmpa_r_index_200 :
    (ran (base.setReg .ip 19) 0x17C80000).map (fun t => (t.reg .ip, t.fault)) = some (15, some .invalidRegister) := by decide

/-- V123: `18 03 04 00`. -/
theorem test_cmp_rr_is_unsigned :
    (ran ((base.setReg .a 200).setReg .b 100) 0x18030400).map (fun t => (t.reg .f, t.fault)) = some (0, none) := by decide

/-- V121: `18 03 04 00`. -/
theorem test_cmp_rr_below :
    (ran ((base.setReg .a 3).setReg .b 4) 0x18030400).map (fun t => (t.reg .f, t.reg .a)) = some (2, 3) := by decide

/-- V125: `19 03 FF 00`. -/
theorem test_cmp_ri_keeps_upper_bits :
    (ran ((base.setReg .a 254).setReg .f 0xFC) 0x1903FF00).map (fun t => (t.reg .f, t.fault)) = some (0xFE, none) := by decide

/-- V127: `19 07 02 00`. -/
theorem test_cmp_ri_of_F_itself :
    (ran (base.setReg .f 2) 0x19070200).map (fun t => (t.reg .f, t.fault)) = some (1, none) := by decide

/-- V103: `1A 0C 00 00`. -/
theorem test_jer_i_lt_alone_falls_through :
    (ran ((base.setReg .ip 19).setReg .f 2) 0x1A0C0000).map (fun t => (t.reg .ip, t.fault)) = some (15, none) := by decide

/-- V104: `1A 0C 00 00`. -/
theorem test_jer_i_only_bit_0_matters :
    (ran ((base.setReg .ip 19).setReg .f 0xFD) 0x1A0C0000).map (fun t => (t.reg .ip, t.fault)) = some (3, none) := by decide

/-- V106: `1B 08 00 00`. -/
theorem test_jer_r_untaken_resolves_nothing :
    (ran (base.setReg .ip 19) 0x1B080000).map (fun t => (t.reg .ip, t.fault)) = some (15, none) := by decide

/-- V105: `1B 03 00 00`. -/
theorem test_jer_r_taken :
    (ran (((base.setReg .ip 19).setReg .a 8).setReg .f 1) 0x1B030000).map (fun t => (t.reg .ip, t.fault)) = some (7, none) := by decide

/-- V108: `1C 00 00 00`. -/
theorem test_jea_i_taken :
    (ran (base.setReg .f 1) 0x1C000000).map (fun t => (t.reg .ip, t.status)) = some (0, .halted) := by decide

/-- V109: `1D 03 00 00`. -/
theorem test_jea_r_taken :
    (ran ((base.setReg .a 23).setReg .f 1) 0x1D030000).map (fun t => (t.reg .ip, t.fault)) = some (23, none) := by decide

/-- V5: `1E 00 00 00`. -/
theorem test_undefined_opcode :
    (ran base 0x1E000000).map (fun t => (t.reg .ip, t.fault)) = some (3, some .invalidOpcode) := by decide

/-- V2: `16 05 06 07`. -/
theorem test_fetch_wraps_through_zero :
    (ran (base.setReg .ip 2) 0x16050607).map (fun t => (t.reg .ip, t.fault)) = some (5, none) := by decide

/-! ## Reset, Load, Inspect -/

/-- V140: Reset of a used machine. -/
theorem test_reset :
    nextSession (transactWith defaultParameters .reset ⟨otherBelow.takeFault .invalidOpcode, true⟩) = some Session.start := by
  decide

/-- The first step after reset runs the instruction `withFetchWord` placed: `mov A, 250` (V10). -/
theorem test_first_step_after_reset :
    (ran State.reset 0x0003FA00).map (fun t => (t.reg .a, t.reg .ip)) = some (250, 255) := by decide

/-- S1: the image of a three-instruction program, and the registers Load leaves. -/
theorem test_load :
    (nextSession (load [⟨0x00, 0x03, 0x05, 0x00⟩, ⟨0x11, 0x0F, 0x00, 0x00⟩, ⟨0x16, 0x00, 0x00, 0x00⟩] Session.start)) =
      some ⟨⟨⟨11, 12, 12, 0, 0, 0, 0, 0⟩, [(0, 0x16), (4, 0x11), (5, 0x0F), (9, 0x03), (10, 0x05)], none⟩, true⟩ := by decide

/-- V143: 64 instructions are refused. -/
theorem test_load_refuses_64 : nextSession (load (halts 64) Session.start) = none := by decide

/-- U5: a second Load is refused, after an empty one too. -/
theorem test_load_refuses_twice :
    (nextSession (load [] Session.start)).map (fun y => nextSession (load (halts 1) y)) = some none := by decide

/-- R3: with another `MAX_PROGRAM` the limit moves. -/
theorem test_load_limit_is_a_parameter :
    nextSession (loadWith 1 (halts 2) Session.start) = none ∧
      (nextSession (loadWith 64 (halts 64) Session.start)).isSome = true := by decide

/-- S4, R3: the latch's number under the default `FAULT_CODE` (3 for ArithmeticFault), and under another. -/
theorem test_fault_code_is_a_parameter :
    (inspect (base.takeFault .arithmeticFault)).faultCode = 3 ∧
      (inspectWith (fun _ => 77) (base.takeFault .arithmeticFault)).faultCode = 77 := by decide

/-- V145: the stack window with SB = 16, SP = 18. -/
theorem test_stack_window : (inspect ⟨⟨7, 18, 16, 0, 0, 0, 0, 0⟩, [(16, 7), (17, 9), (18, 1)], none⟩).window = [(16, 7), (17, 9)] := by
  decide

/-! ## Witnesses: the hypotheses of each obligation are met, clause by clause -/

/-- Each of the three statuses occurs; IP = 1 is the least running IP. -/
theorem witness_StatusIsAFunctionOfLatchAndIp :
    State.reset.status = .halted ∧ (State.reset.setReg .ip 1).status = .running ∧
      (base.takeFault .invalidOpcode).status = .faulted := by decide

theorem witness_StepRunsTheDecodedInstruction :
    atJmpaZero.status = .running ∧
      decodeWith defaultOpcodeMap ⟨atJmpaZero.cell (atJmpaZero.reg .ip - 3), atJmpaZero.cell (atJmpaZero.reg .ip - 2),
        atJmpaZero.cell (atJmpaZero.reg .ip - 1), atJmpaZero.cell (atJmpaZero.reg .ip)⟩ = .ok (.jmpaI 0) := ⟨by decide, rfl⟩

theorem witness_UndefinedOpcodeRaisesInvalidOpcode :
    (base.withFetchWord 32 0x1E000000).status = .running ∧
      ∀ k, defaultOpcodeMap.value k ≠ (base.withFetchWord 32 0x1E000000).cell ((base.withFetchWord 32 0x1E000000).reg .ip - 3) :=
  ⟨by decide, by intro k; cases k <;> decide⟩

theorem witness_HaltedOrFaultedMachineStaysAsItIs :
    State.reset.status ≠ .running ∧ (base.takeFault .arithmeticFault).status ≠ .running := by decide

theorem witness_EncodeOfDecodeZeroesOnlyUnusedFields :
    decodeWith defaultOpcodeMap ⟨0x09, 0x03, 0x0A, 0x77⟩ = .ok (.addRI 3 10) ∧ Instr.mnemonic (.addRI 3 10) ∉ oneOperand ∧
      decodeWith defaultOpcodeMap ⟨0x16, 0x00, 0x55, 0x66⟩ = .ok (.jmpaI 0) ∧ Instr.mnemonic (.jmpaI 0) ∈ oneOperand :=
  ⟨rfl, by decide, rfl, by decide⟩

theorem witness_DecoderAcceptsExactlyTheOpcodeMap :
    (∃ k, defaultOpcodeMap.value k = 0x1D) ∧ ∀ k, defaultOpcodeMap.value k ≠ 0x1E :=
  ⟨⟨.jeaR, rfl⟩, by intro k; cases k <;> decide⟩

/-- The last register index is 7; 8 and 255 are above. -/
theorem witness_CheckedPortsSelectEightRegisters :
    Reg.index .f = 7 ∧ (7 : Word) < 8 ∧ (7 : Word) < 255 := by decide

/-- SB = 8: address 7 is below it, address 8 is not. -/
theorem witness_GuardRejectsAddressesBelowStackBase :
    (7 : Word).toNat < (base.reg .sb).toNat ∧ (base.reg .sb).toNat ≤ (8 : Word).toNat := by decide

/-- Bad indices on either side, and the opcode premises. -/
theorem witness_MoveImmediateOrRegisterToRegister :
    (7 : Word) < 8 ∧ ((7 : Word) < 8 ∨ (7 : Word) < 0) ∧ ((7 : Word) < 0 ∨ (7 : Word) < 255) ∧
      defaultOpcodeMap.value .movRI = 0x00 ∧ defaultOpcodeMap.value .movRR = 0x01 := by decide

/-- Stores at SB and just below it, by field and by register. -/
theorem witness_MoveImmediateToMemory :
    base.reg .sb ≤ 8 ∧ (7 : Word) < base.reg .sb ∧ base.reg .sb ≤ (base.setReg .c 8).reg .c ∧
      (base.setReg .c 7).reg .c < (base.setReg .c 7).reg .sb ∧ (7 : Word) < 8 ∧
      defaultOpcodeMap.value .movAI = 0x03 ∧ defaultOpcodeMap.value .movMI = 0x06 := by decide

theorem witness_MoveFromMemoryToRegister :
    (base.setReg .c 8).reg .sb ≤ (base.setReg .c 8).reg .c ∧ (7 : Word) < 8 ∧
      (base.setReg .c 7).reg .c < (base.setReg .c 7).reg .sb := by decide

theorem witness_MoveRegisterToMemory :
    base.reg .sb ≤ 8 ∧ (7 : Word) < 8 ∧ (7 : Word) < base.reg .sb ∧
      (base.setReg .c 8).reg .sb ≤ (base.setReg .c 8).reg .c ∧ ((7 : Word) < 0 ∨ (7 : Word) < 8) ∧
      (base.setReg .c 7).reg .c < (base.setReg .c 7).reg .sb := by decide

/-- Source at SB with destination at SB, and with destination just below it; source just below it. -/
theorem witness_MoveMemoryToMemory :
    (base.setReg .a 8).reg .sb ≤ (base.setReg .a 8).reg .a ∧ (base.setReg .a 8).reg .sb ≤ 8 ∧ (7 : Word) < 8 ∧
      (base.setReg .a 7).reg .a < (base.setReg .a 7).reg .sb ∧ (7 : Word) < base.reg .sb ∧
      (base.setReg .a 8).reg .b < (base.setReg .a 8).reg .sb := by decide

theorem witness_AddSubMulImmediateModulo256 :
    (7 : Word) < 8 ∧ defaultOpcodeMap.value .addRI = 0x09 ∧ defaultOpcodeMap.value .subRI = 0x0B ∧
      defaultOpcodeMap.value .mulRI = 0x0D := by decide

theorem witness_AddSubMulRegisterModulo256 :
    ((7 : Word) < 8 ∨ (7 : Word) < 3) ∧ ((7 : Word) < 3 ∨ (7 : Word) < 8) ∧ defaultOpcodeMap.value .addRR = 0x0A ∧
      defaultOpcodeMap.value .subRR = 0x0C ∧ defaultOpcodeMap.value .mulRR = 0x0E := by decide

/-- Divisors 1 and 0, immediate and in a register. -/
theorem witness_DivideGivesFloorQuotientOrFaults :
    (1 : Word) ≠ 0 ∧ (7 : Word) < 8 ∧ (base.setReg .b 1).reg .b ≠ 0 ∧ base.reg .b = 0 ∧
      ((7 : Word) < 3 ∨ (7 : Word) < 8) := by decide

theorem witness_ArithmeticFaultIsDivisionByZeroAlone :
    base.reg .b = 0 ∧ base.fault ≠ some .arithmeticFault ∧
      exec (.divRR 3 4) base = .next (base.takeFault .arithmeticFault) ∧
      (base.takeFault .arithmeticFault).fault = some .arithmeticFault := ⟨by decide, by decide, rfl, by decide⟩

/-- SP at SB, at the top of memory, and just below SB. -/
theorem witness_PushImmediateStoresThenRaisesSp :
    base.reg .sb ≤ base.reg .sp ∧ (base.setReg .sp 255).reg .sb ≤ (base.setReg .sp 255).reg .sp ∧
      (base.setReg .sp 7).reg .sp < (base.setReg .sp 7).reg .sb ∧ defaultOpcodeMap.value .pushI = 0x11 := by decide

theorem witness_PushRegisterStoresThenRaisesSp :
    base.reg .sb ≤ base.reg .sp ∧ (base.setReg .sp 7).reg .sp < (base.setReg .sp 7).reg .sb ∧ (7 : Word) < 8 := by decide

/-- One cell on the stack (SP = SB + 1), none (SP = SB), and SP = SB = 0, where SP wraps to 255. -/
theorem witness_PopLowersSpThenLoads :
    (base.setReg .sp 9).reg .sb ≤ (base.setReg .sp 9).reg .sp - 1 ∧ base.reg .sp - 1 < base.reg .sb ∧ (7 : Word) < 8 ∧
      State.reset.reg .sb ≤ State.reset.reg .sp - 1 := by decide

theorem witness_PushAndPopAreTheirTwoMicroOps : base.fault = none := by decide

/-- SP at SB and at the top of memory; PUSH.R of A, and IP moved to 0 as by a fetch at entry 4. -/
theorem witness_PopReturnsThePushedValue :
    base.reg .sb ≤ base.reg .sp ∧ (base.setReg .sp 255).reg .sb ≤ (base.setReg .sp 255).reg .sp ∧
      (.pushR 3 = Instr.pushR Reg.a.index ∧ 0 = base.reg .a) ∧ OnlyRegister .ip 0 base (base.setReg .ip 0) :=
  ⟨by decide, by decide, ⟨rfl, rfl⟩, onlyRegister_setReg _ _ _⟩

theorem witness_UnconditionalJumpsWriteIp :
    (7 : Word) < 8 ∧ defaultOpcodeMap.value .jmprI = 0x14 ∧ defaultOpcodeMap.value .jmprR = 0x15 ∧
      defaultOpcodeMap.value .jmpaI = 0x16 ∧ defaultOpcodeMap.value .jmpaR = 0x17 := by decide

theorem witness_CompareWritesTwoFlagBits :
    ((7 : Word) < 8 ∨ (7 : Word) < 0) ∧ ((7 : Word) < 0 ∨ (7 : Word) < 8) ∧ (7 : Word) < 8 ∧
      defaultOpcodeMap.value .cmpRR = 0x18 ∧ defaultOpcodeMap.value .cmpRI = 0x19 := by decide

/-- F = 0x01 takes the jump; F = 0xFE does not. -/
theorem witness_ConditionalJumpOnImmediate :
    ((base.setReg .f 0x01).reg .f).getLsbD 0 = true ∧ ((base.setReg .f 0xFE).reg .f).getLsbD 0 = false ∧
      defaultOpcodeMap.value .jerI = 0x1A ∧ defaultOpcodeMap.value .jeaI = 0x1C := by decide

theorem witness_ConditionalJumpOnRegister :
    ((base.setReg .f 0x01).reg .f).getLsbD 0 = true ∧ (7 : Word) < 8 ∧
      ((base.setReg .f 0xFE).reg .f).getLsbD 0 = false := by decide

/-- V94 `jmpr 15` at entry 19 and V98 `jmpa 0`: both reach 0. -/
theorem witness_RelativeAndAbsoluteJumpsReachOneTarget :
    ((base.setReg .ip 19).withFetchWord 32 0x140F0000).status = .running ∧
      (fetch ((base.setReg .ip 19).withFetchWord 32 0x140F0000)).1 =
        encodeWith defaultOpcodeMap (.jmprI (((base.setReg .ip 19).withFetchWord 32 0x140F0000).reg .ip - 4 - 0)) ∧
      atJmpaZero.status = .running ∧ (fetch atJmpaZero).1 = encodeWith defaultOpcodeMap (.jmpaI 0) := by decide

theorem witness_InstructionsKeepOtherRegisters :
    exec (.addRI 3 10) base = .next (base.setReg .a 10) ∧ Reg.b ∉ writtenRegisters (.addRI 3 10) := ⟨rfl, by decide⟩

/-- A store (address 8 written, 9 kept) and a form that stores nothing. -/
theorem witness_InstructionsKeepOtherCells :
    exec (.movAI 8 1) base = .next (base.setCell 8 1) ∧ storeAddress (.movAI 8 1) base ≠ some 9 ∧
      exec (.addRI 3 10) base = .next (base.setReg .a 10) ∧ storeAddress (.addRI 3 10) base ≠ some 8 :=
  ⟨rfl, by decide, rfl, by decide⟩

/-- From entry 7 and from the last entry address, 3, where IP goes to 255. -/
theorem witness_SequentialStepLowersIpByFour :
    (base.withFetchWord 32 0x09030A00).status = .running ∧
      decodeWith defaultOpcodeMap (fetch (base.withFetchWord 32 0x09030A00)).1 = .ok (.addRI 3 10) ∧
      ((base.setReg .ip 3).withFetchWord 32 0x09030A00).status = .running ∧
      decodeWith defaultOpcodeMap (fetch ((base.setReg .ip 3).withFetchWord 32 0x09030A00)).1 = .ok (.addRI 3 10) ∧
      Reg.ip ∉ writtenRegisters (.addRI 3 10) ∧ ((base.setReg .ip 3).reg .ip).getLsbD 0 = true :=
  ⟨by decide, rfl, by decide, rfl, by decide, by decide⟩

/-- V78 (a POP that faults) and V55 (another instruction that does). -/
theorem witness_FaultingStepKeepsAllButIpAndPoppedSp :
    (base.withFetchWord 32 0x13030000).status = .running ∧
      (∃ dst, decodeWith defaultOpcodeMap (fetch (base.withFetchWord 32 0x13030000)).1 = .ok (.popR dst)) ∧
      (∃ t, stepWith defaultOpcodeMap (base.withFetchWord 32 0x13030000) = .next t ∧ t.fault = some .memoryGuardViolation) ∧
      (base.withFetchWord 32 0x0F030000).status = .running ∧
      (¬ ∃ dst, decodeWith defaultOpcodeMap (fetch (base.withFetchWord 32 0x0F030000)).1 = .ok (.popR dst)) ∧
      ∃ t, stepWith defaultOpcodeMap (base.withFetchWord 32 0x0F030000) = .next t ∧ t.fault = some .arithmeticFault := by
  refine ⟨by decide, ⟨3, rfl⟩, ⟨_, rfl, by decide⟩, by decide, ?_, ⟨_, rfl, by decide⟩⟩
  rintro ⟨dst, h⟩
  have h' : decodeWith defaultOpcodeMap (fetch (base.withFetchWord 32 0x0F030000)).1 = .ok (.divRI 3 0) := rfl
  simp [h'] at h

theorem witness_InstructionsRaiseOnlyTheirFaultKinds :
    base.fault = none ∧ exec (.movRI 8 1) base = .next (base.takeFault .invalidRegister) ∧
      (base.takeFault .invalidRegister).fault = some .invalidRegister := ⟨by decide, rfl, by decide⟩

theorem witness_WellFormedInstructionsNeverRaiseInvalidRegister :
    Instr.wellFormed (.divRI 3 0) = true ∧ base.fault ≠ some .invalidRegister ∧
      exec (.divRI 3 0) base = .next (base.takeFault .arithmeticFault) := ⟨by decide, by decide, rfl⟩

theorem witness_FaultedMachineIsLeftOnlyByReset :
    (base.takeFault .invalidOpcode).status = .faulted ∧
      transactWith defaultParameters .reset ⟨base.takeFault .invalidOpcode, true⟩ = .next Session.start ∧
      transactWith defaultParameters .step ⟨base.takeFault .invalidOpcode, true⟩ =
        .next ⟨base.takeFault .invalidOpcode, true⟩ :=
  ⟨by decide, rfl, rfl⟩

theorem witness_EveryStepKeepsTheInvariant :
    MachineInvariant atJmpaZero ∧ stepWith defaultOpcodeMap atJmpaZero = .next (atJmpaZero.setReg .ip 0) :=
  ⟨⟨by decide, by decide⟩, rfl⟩

/-- A loaded session that runs, and a fresh one that is loaded. -/
theorem witness_EveryTransactionKeepsTheInvariant :
    SessionInvariant ⟨atJmpaZero, true⟩ ∧
      transactWith defaultParameters (.execute 1) ⟨atJmpaZero, true⟩ = .next ⟨atJmpaZero.setReg .ip 0, true⟩ ∧
      SessionInvariant Session.start ∧ ∃ y, transactWith defaultParameters (.load (halts 1)) Session.start = .next y :=
  ⟨⟨⟨by decide, by decide⟩, nofun⟩, rfl, ⟨⟨by decide, by decide⟩, fun _ => rfl⟩, ⟨_, rfl⟩⟩

/-- Two memories reached by writes in different orders, with entries at both ends of the address space. -/
theorem witness_CanonicalMemoriesThatReadAlikeAreEqual :
    Memory.wf (Memory.write (Memory.write [] 0 1) 255 2) ∧ Memory.wf (Memory.write (Memory.write [] 255 2) 0 1) ∧
      ∀ a, a < 256 → Memory.read (Memory.write (Memory.write [] 0 1) 255 2) a =
        Memory.read (Memory.write (Memory.write [] 255 2) 0 1) a := ⟨by decide, by decide, fun _ _ => rfl⟩

/-- V24's refused store to address 7 (just below SB = 8) and its accepted one to 8. -/
theorem witness_NoStepWritesBelowItsStackBase :
    (∃ t, stepWith defaultOpcodeMap (base.withFetchWord 32 0x03070100) = .next t) ∧
      (∃ t, stepWith defaultOpcodeMap (base.withFetchWord 32 0x03080100) = .next t) ∧
      (7 : Word) < (base.withFetchWord 32 0x03070100).reg .sb ∧ (7 : Word) < (base.withFetchWord 32 0x03080100).reg .sb :=
  ⟨⟨_, rfl⟩, ⟨_, rfl⟩, by decide, by decide⟩

/-- The pair differs at cell 7 and nowhere from SB = 8 on; `mov SB, 0` runs on both. -/
theorem witness_NoInstructionReadsBelowItsStackBase :
    base.cell 7 ≠ otherBelow.cell 7 ∧ SameAboveStackBase base otherBelow ∧ base.reg .sb ≤ 8 ∧
      exec (.movRI 2 0) base = .next (base.setReg .sb 0) ∧ exec (.movRI 2 0) otherBelow = .next (otherBelow.setReg .sb 0) := by
  refine ⟨by decide, ⟨fun _ => rfl, rfl, ?_⟩, by decide, rfl, rfl⟩
  intro a h
  exact (State.cell_setCell_of_ne base 0x55 (fun e => absurd (e ▸ h) (by decide))).symm

/-- `mov [8], 1` at the boundary address and `push A`, each read back through C after IP moved. -/
theorem witness_LoadReadsTheLastStore :
    (let s := base.setReg .c 8
     storeAddress (.movAI 8 1) s = some 8 ∧ storedValue (.movAI 8 1) s = some 1 ∧
      exec (.movAI 8 1) s = .next (s.setCell 8 1) ∧ (s.setCell 8 1).fault = none ∧
      OnlyRegister .ip 3 (s.setCell 8 1) ((s.setCell 8 1).setReg .ip 3) ∧ ((s.setCell 8 1).setReg .ip 3).reg .c = 8) ∧
    (let s := (base.setReg .a 7).setReg .c 8
     storeAddress (.pushR 3) s = some 8 ∧ storedValue (.pushR 3) s = some 7 ∧
      exec (.pushR 3) s = .next ((s.setCell 8 7).setReg .sp 9) ∧ ((s.setCell 8 7).setReg .sp 9).fault = none ∧
      ((s.setCell 8 7).setReg .sp 9).reg .c = 8) :=
  ⟨⟨by decide, by decide, rfl, by decide, onlyRegister_setReg _ _ _, by decide⟩,
    by decide, by decide, rfl, by decide, by decide⟩

/-- A store to each of the four places of the block that ends at IP = 11, the lowest of them at SB = 8. -/
theorem witness_NextFetchSeesTheStore :
    (let s := base.setReg .ip 11
     (∀ a ∈ [(11 : Word), 10, 9, 8], storeAddress (.movAI a 1) s = some a ∧ storedValue (.movAI a 1) s = some 1 ∧
        nextState (exec (.movAI a 1) s) = some (s.setCell a 1) ∧ (s.setCell a 1).fault = none) ∧
      (s.setCell 11 1).reg .ip = 11 ∧ (10 : Word) = 11 - 1 ∧ (9 : Word) = 11 - 2 ∧ (8 : Word) = 11 - 3) ∧
    (let s := (base.setReg .ip 11).setReg .a 7
     storeAddress (.pushR 3) s = some 8 ∧ storedValue (.pushR 3) s = some 7 ∧
      nextState (exec (.pushR 3) s) = some ((s.setCell 8 7).setReg .sp 9)) := by decide

/-- Programs of 1 and of 63 instructions: the first instruction, and the cell 252 just above the longest program. -/
theorem witness_LoadPlacesTheProgramInReverse :
    (1 ≤ [encode (.jmpaI 0)].length ∧ [encode (.jmpaI 0)].length ≤ 63 ∧ [encode (.jmpaI 0)][0]? = some ⟨0x16, 0, 0, 0⟩) ∧
      1 ≤ (List.replicate 63 (encode (.jmpaI 0))).length ∧ (List.replicate 63 (encode (.jmpaI 0))).length ≤ 63 ∧
      (List.replicate 63 (encode (.jmpaI 0)))[62]? = some ⟨0x16, 0, 0, 0⟩ ∧
      4 * (List.replicate 63 (encode (.jmpaI 0))).length ≤ (252 : Word).toNat := by decide

/-- A loaded session, a used machine, 64 instructions and 63, under the default limit. -/
theorem witness_LoadRefusesUsedMachinesAndLongPrograms :
    (Session.mk State.reset true).loaded = true ∧ base ≠ State.reset ∧
      defaultParameters.maxProgram < (halts 64).length ∧ (halts 63).length ≤ defaultParameters.maxProgram := by decide

/-- A block at the base 254, which wraps through address 0; and programs of 1 and 63 instructions. -/
theorem witness_FetchesReturnTheLoadedSequence :
    (let s := (base.setReg .ip 1).withFetchWord 32 0x16050607
     s.cell 254 = 0x16 ∧ s.cell (254 + 1) = 5 ∧ s.cell (254 + 2) = 6 ∧ s.cell (254 + 3) = 7 ∧ s.reg .ip = 254 + 3) ∧
      1 ≤ [encode (.jmpaI 0)].length ∧ (List.replicate 63 (encode (.jmpaI 0))).length ≤ 63 := by decide

/-- Execute that ends, within fuel 1 and with fuel to spare; and one whose fuel runs out. -/
theorem witness_ExecuteReachesWhatStepsReach :
    executeWith defaultOpcodeMap 1 atJmpaZero = .next (atJmpaZero.setReg .ip 0) ∧
      executeWith defaultOpcodeMap 9 atJmpaZero = .next (atJmpaZero.setReg .ip 0) ∧
      executeWith defaultOpcodeMap 0 atJmpaZero = .fault .executeDidNotReturn := ⟨rfl, rfl, rfl⟩

/-- SP = SB, and SP just above SB. -/
theorem witness_InspectShowsTheStackWindow :
    base.reg .sp ≤ base.reg .sb ∧
      (8, 0) ∈ (inspect (base.setReg .sp 9)).window ∧ (9, 0) ∉ (inspect (base.setReg .sp 9)).window := by decide

theorem witness_JumpOrMoveToZeroHaltsUnderEveryMap :
    atJmpaZero.status = .running ∧ (fetch atJmpaZero).1 = encodeWith defaultOpcodeMap (.jmpaI 0) ∧
      (base.withFetchWord 32 0).status = .running ∧
      (fetch (base.withFetchWord 32 0)).1 = encodeWith defaultOpcodeMap (.movRI 0 0) := by decide

/-- IP = 255, as falling through address 0 leaves it (R166), over empty memory. -/
theorem witness_ZeroCellsHaltUnderTheDefaultMap :
    (base.setReg .ip 255).status = .running ∧
      ∀ k : Word, k ≤ 3 → (base.setReg .ip 255).cell ((base.setReg .ip 255).reg .ip - k) = 0 := ⟨by decide, fun _ _ => rfl⟩

end Sys2Proof.Tests
end

/-! # The run status (R22): one equivalence per status -/

namespace Sys2Proof.Machine

theorem State.status_faulted {s : State} : s.status = .faulted ↔ s.fault ≠ none := by
  unfold State.status
  cases s.fault with
  | some k => simp
  | none => dsimp only; split <;> simp

theorem State.status_halted {s : State} : s.status = .halted ↔ s.fault = none ∧ s.reg .ip = 0 := by
  unfold State.status
  cases s.fault with
  | some k => simp
  | none => simp

/-- Settles O2: each status has its own equivalence; the latch decides first, then whether IP is 0. -/
theorem statusIsAFunctionOfLatchAndIp : Obligations.StatusIsAFunctionOfLatchAndIp :=
  fun _ => ⟨State.status_faulted, State.status_halted, State.status_running⟩

end Sys2Proof.Machine

/-! # The guard (R36): the address against SB, as unsigned numbers -/

namespace Sys2Proof.Machine

/-- Settles O13: the order of words is the order of their unsigned values, so the two clauses are the two answers of each
guarded port; an accepted write is one `setCell`. -/
theorem guardRejectsAddressesBelowStackBase : Obligations.GuardRejectsAddressesBelowStackBase := by
  intro s a v
  constructor
  · intro below
    have hlt : a < s.reg .sb := BitVec.lt_def.2 below
    exact ⟨s.gRead_of_lt hlt, s.gWrite_of_lt v hlt⟩
  · intro above
    have hle : s.reg .sb ≤ a := BitVec.le_def.2 above
    exact ⟨s.gRead_of_le hle, s.setCell a v, s.gWrite_of_le v hle, onlyCell_setCell s a v⟩

end Sys2Proof.Machine

/-! # The fetch (R72) and the block it reads -/

namespace Sys2Proof.Machine

/-- Settles O3: the fetch's record and its next state each have an equation; the next state is one raw write of IP. -/
theorem fetchReadsFourCellsDownwards : Obligations.FetchReadsFourCellsDownwards := by
  intro s
  refine ⟨fetch_fst s, ?_⟩
  rw [fetch_snd]
  exact onlyRegister_setReg s .ip _

/-- R51: the four cells from `b` upwards are the fields of the record, operation lowest. -/
def HoldsRecord (s : State) (b : Word) (r : Record) : Prop :=
  s.cell b = r.operation ∧ s.cell (b + 1) = r.operand1 ∧ s.cell (b + 2) = r.operand2 ∧ s.cell (b + 3) = r.operand3

/-- R73: a block in memory is fetched as the record it holds, with IP on its highest address. -/
theorem fetch_of_holdsRecord {s : State} {b : Word} {r : Record} (h : HoldsRecord s b r) (hip : s.reg .ip = b + 3) :
    fetch s = (r, s.setReg .ip (b - 1)) := by
  obtain ⟨hop, h1, h2, h3⟩ := h
  have e0 : b + 3 - 3 = b := by bv_omega
  have e1 : b + 3 - 2 = b + 1 := by bv_omega
  have e2 : b + 3 - 1 = b + 2 := by bv_omega
  have e4 : b + 3 - 4 = b - 1 := by bv_omega
  refine Prod.ext ?_ ?_
  · rw [fetch_fst, hip, e0, e1, e2, hop, h1, h2, h3]
  · rw [fetch_snd, hip, e4]

end Sys2Proof.Machine

/-! # The loader's encode (R152) and the sequence it places (R153) -/

namespace Sys2Proof.Machine

@[simp] theorem reg_ip_encodeAt (s : State) (r : Record) : (encodeAt s r).reg .ip = s.reg .ip + 4 := by
  simp [encodeAt]

/-- R152: the block that encode writes from IP upwards holds the record. -/
theorem holdsRecord_encodeAt (s : State) (r : Record) : HoldsRecord (encodeAt s r) (s.reg .ip) r := by
  simp [HoldsRecord, encodeAt]

/-- Encode leaves the cells below its block alone, when the block does not wrap through address 0. -/
theorem cell_encodeAt_of_lt {s : State} (r : Record) {a : Word} (h : a < s.reg .ip) (hwrap : (s.reg .ip).toNat ≤ 252) :
    (encodeAt s r).cell a = s.cell a := by
  generalize hb : s.reg .ip = b at h hwrap
  have h0 : a ≠ b := by bv_omega
  have h1 : a ≠ b + 1 := by bv_omega
  have h2 : a ≠ b + 2 := by bv_omega
  have h3 : a ≠ b + 3 := by bv_omega
  simp only [encodeAt, hb, State.cell_setReg, State.cell_setCell, if_neg h0, if_neg h1, if_neg h2, if_neg h3]

/-- R153: the sequence encoded last instruction first from address 0, before SP, SB and IP take their final values. -/
def encodeProgram (program : List Record) (s : State) : State :=
  program.reverse.foldl encodeAt (s.setReg .ip 0)

theorem encodeProgram_cons (r : Record) (rest : List Record) (s : State) :
    encodeProgram (r :: rest) s = encodeAt (encodeProgram rest s) r := by
  simp [encodeProgram]

theorem reg_ip_encodeProgram (program : List Record) (s : State) :
    (encodeProgram program s).reg .ip = BitVec.ofNat 8 (4 * program.length) := by
  induction program with
  | nil => simp [encodeProgram]
  | cons r rest ih =>
    rw [encodeProgram_cons, reg_ip_encodeAt, ih, List.length_cons, Nat.mul_succ, BitVec.ofNat_add]
    rfl

/-- Loading a sequence that is not empty ends in the encoded cells, with IP on the highest of them. -/
theorem loadInto_of_ne_nil {program : List Record} (h : program ≠ []) (s : State) :
    (∀ a, (loadInto program s).cell a = (encodeProgram program s).cell a) ∧
      (loadInto program s).reg .ip = (encodeProgram program s).reg .ip - 1 := by
  cases program with
  | nil => exact absurd rfl h
  | cons r rest => simp [loadInto, encodeProgram]

theorem load_start {program : List Record} (h : program.length ≤ 63) :
    load program Session.start = .next ⟨loadInto program State.reset, true⟩ := by
  simp [load, loadWith, Session.start, defaultMaxProgram, Nat.not_lt.2 h]

/-- R73: in any state that agrees with the encoded sequence on its cells and has IP on the highest of them, as many fetches
as there are instructions return the sequence in order. Each fetch takes the first record off, and what is left of the
sequence lies below the block just read. -/
theorem fetchMany_of_encodeProgram {program : List Record} (hlen : program.length ≤ 63) (s u : State)
    (hcell : ∀ a : Word, a.toNat < 4 * program.length → u.cell a = (encodeProgram program s).cell a)
    (hip : u.reg .ip = (encodeProgram program s).reg .ip - 1) :
    (fetchMany program.length u).1 = program ∧ (fetchMany program.length u).2.reg .ip = 255 := by
  induction program generalizing u with
  | nil => exact ⟨rfl, by simpa [fetchMany, encodeProgram] using hip⟩
  | cons r rest ih =>
    rw [List.length_cons] at hlen hcell
    rw [encodeProgram_cons] at hcell hip
    rw [reg_ip_encodeAt] at hip
    have hbase : ((encodeProgram rest s).reg .ip).toNat = 4 * rest.length := by
      rw [reg_ip_encodeProgram, BitVec.toNat_ofNat]; omega
    have hblock : HoldsRecord u ((encodeProgram rest s).reg .ip) r := by
      obtain ⟨hop, h1, h2, h3⟩ := holdsRecord_encodeAt (encodeProgram rest s) r
      exact ⟨(hcell _ (by omega)).trans hop, (hcell _ (by bv_omega)).trans h1,
        (hcell _ (by bv_omega)).trans h2, (hcell _ (by bv_omega)).trans h3⟩
    have hfetch := fetch_of_holdsRecord hblock (by bv_omega)
    have hrest := ih (by omega) (u.setReg .ip ((encodeProgram rest s).reg .ip - 1)) (fun a ha => ?_)
      (State.reg_setReg_self u .ip _)
    · simpa [fetchMany, hfetch] using hrest
    · rw [State.cell_setReg, hcell a (by omega)]
      exact cell_encodeAt_of_lt r (by bv_omega) (by omega)

/-- Settles O51: the encoded block and the fetched block by `HoldsRecord`; the loaded sequence by induction over it. -/
theorem fetchesReturnTheLoadedSequence : Obligations.FetchesReturnTheLoadedSequence := by
  refine ⟨fun s r => ?_, fun s b r hop h1 h2 h3 hip => ?_, fun program hpos hlen => ?_⟩
  · obtain ⟨hop, h1, h2, h3⟩ := holdsRecord_encodeAt s r
    exact ⟨hop, h1, h2, h3, reg_ip_encodeAt s r⟩
  · have hfetch : fetch s = (r, s.setReg .ip (b - 1)) := fetch_of_holdsRecord ⟨hop, h1, h2, h3⟩ hip
    exact ⟨by rw [hfetch], by rw [hfetch, State.reg_setReg_self]⟩
  · obtain ⟨hcell, hip⟩ := loadInto_of_ne_nil (List.length_pos_iff.1 hpos) State.reset
    exact ⟨_, _, load_start hlen, rfl, fetchMany_of_encodeProgram hlen State.reset _ (fun a _ => hcell a) hip⟩

end Sys2Proof.Machine

/-! # The move family (R80 to R88): the source decides the value, the destination decides the effect -/

namespace Sys2Proof.Machine

section MoveEffect

variable {dst : Destination} {src : Source} {s : State} {v : Word}

theorem move_onlyRegister {r : Reg} (hsrc : src s = .ok v) (hdst : dst v s = .ok (s.setReg r v)) :
    ∃ t, finish (move dst src) s = .next t ∧ OnlyRegister r v s t :=
  finish_onlyRegister ((move_of_ok hsrc).trans hdst)

theorem move_onlyCell {a : Word} (hsrc : src s = .ok v) (hdst : dst v s = .ok (s.setCell a v)) :
    ∃ t, finish (move dst src) s = .next t ∧ OnlyCell a v s t :=
  finish_onlyCell ((move_of_ok hsrc).trans hdst)

theorem move_onlyFault_of_source {k : FaultKind} (hsrc : src s = .error k) :
    ∃ t, finish (move dst src) s = .next t ∧ OnlyFault k s t :=
  finish_onlyFault (move_of_error hsrc)

theorem move_onlyFault_of_destination {k : FaultKind} (hsrc : src s = .ok v) (hdst : dst v s = .error k) :
    ∃ t, finish (move dst src) s = .next t ∧ OnlyFault k s t :=
  finish_onlyFault ((move_of_ok hsrc).trans hdst)

end MoveEffect

/-- R75, R81: a move between registers raises InvalidRegister when either index is bad: the source's is looked at first, and a
good source leaves the destination's to be the bad one. -/
theorem moveRegReg_onlyFault {d i : Word} (s : State) (h : 7 < d ∨ 7 < i) :
    ∃ t, finish (move (regDestination d) (regSource i)) s = .next t ∧ OnlyFault .invalidRegister s t := by
  obtain ⟨r, rfl⟩ | hi := Reg.index_cases i
  · have hd : 7 < d := h.resolve_right r.not_gt_index
    exact move_onlyFault_of_destination (regSource_index r s) (regDestination_of_gt _ s hd)
  · exact move_onlyFault_of_source (regSource_of_gt s hi)

/-- Settles O14: an immediate source always has a value and a register source has one exactly for a good index; a register
destination then makes one raw write or raises. The encodings are the encoder's own up to the opcode premise. -/
theorem moveImmediateOrRegisterToRegister : Obligations.MoveImmediateOrRegisterToRegister := by
  intro s
  refine ⟨fun dst v => ?_, fun dst v hdst => ?_, fun dst r => ?_, fun dst r hbad => ?_, fun m dst x => ⟨?_, ?_⟩⟩
  · exact move_onlyRegister (immSource_apply v s) (regDestination_index dst v s)
  · exact move_onlyFault_of_destination (immSource_apply v s) (regDestination_of_gt v s hdst)
  · exact move_onlyRegister (regSource_index r s) (regDestination_index dst _ s)
  · exact moveRegReg_onlyFault s hbad
  · exact congrArg (Record.mk · dst x 0)
  · exact congrArg (Record.mk · dst x 0)

/-- Settles O15: an immediate source always has a value, so the destination alone decides: the guard on the address field, or
the register index and then the guard on the register's value. -/
theorem moveImmediateToMemory : Obligations.MoveImmediateToMemory := by
  intro s
  refine ⟨fun a v above => ?_, fun a v below => ?_, fun dst v above => ?_, fun dst v below => ?_, fun dst v hdst => ?_,
    fun m x v => ⟨?_, ?_⟩⟩
  · exact move_onlyCell (immSource_apply v s) (absDestination_of_le v above)
  · exact move_onlyFault_of_destination (immSource_apply v s) (absDestination_of_lt v below)
  · exact move_onlyCell (immSource_apply v s) (memDestination_of_le dst v above)
  · exact move_onlyFault_of_destination (immSource_apply v s) (memDestination_of_lt dst v below)
  · exact move_onlyFault_of_destination (immSource_apply v s) (memDestination_of_gt v s hdst)
  · exact congrArg (Record.mk · x v 0)
  · exact congrArg (Record.mk · x v 0)

end Sys2Proof.Machine

/-! # The ALU (R98): addition, subtraction and multiplication of words are the exact results modulo 256 -/

namespace Sys2Proof.Machine

theorem aluAdd_eq_mod (t v : Word) : aluAdd t v = .ok (BitVec.ofNat 8 ((t.toNat + v.toNat) % 256)) :=
  congrArg Except.ok (BitVec.eq_of_toNat_eq (by simp))

/-- The 256 keeps the exact difference from being truncated at 0, and vanishes modulo 256. -/
theorem aluSub_eq_mod (t v : Word) : aluSub t v = .ok (BitVec.ofNat 8 ((t.toNat + 256 - v.toNat) % 256)) :=
  congrArg Except.ok (by bv_omega)

theorem aluMul_eq_mod (t v : Word) : aluMul t v = .ok (BitVec.ofNat 8 ((t.toNat * v.toNat) % 256)) :=
  congrArg Except.ok (BitVec.eq_of_toNat_eq (by simp))

end Sys2Proof.Machine

/-! # The arithmetic family (R90 to R95): with both operands resolved, the ALU's result is the one write -/

namespace Sys2Proof.Machine

section ArithmeticEffect

variable {op : AluOp} {src : Source} {s : State} {v : Word}

theorem arithmetic_onlyRegister {r : Reg} {w : Word} (hsrc : src s = .ok v) (hop : op (s.reg r) v = .ok w) :
    ∃ t, finish (arithmetic op r.index src) s = .next t ∧ OnlyRegister r w s t :=
  finish_onlyRegister (by rw [arithmetic_index r hsrc, hop]; rfl)

theorem arithmetic_onlyFault_of_source {d : Word} {k : FaultKind} (hsrc : src s = .error k) :
    ∃ t, finish (arithmetic op d src) s = .next t ∧ OnlyFault k s t :=
  finish_onlyFault (arithmetic_of_error hsrc)

theorem arithmetic_onlyFault_of_gt {d : Word} (hsrc : src s = .ok v) (hd : 7 < d) :
    ∃ t, finish (arithmetic op d src) s = .next t ∧ OnlyFault .invalidRegister s t :=
  finish_onlyFault (arithmetic_of_gt hsrc hd)

end ArithmeticEffect

/-- R75: whatever the ALU computes, a bad index raises InvalidRegister: the source's is looked at first, and a good source
leaves the destination's to be the bad one. -/
theorem arithmeticRegReg_onlyFault (op : AluOp) {d i : Word} (s : State) (h : 7 < d ∨ 7 < i) :
    ∃ t, finish (arithmetic op d (regSource i)) s = .next t ∧ OnlyFault .invalidRegister s t := by
  obtain ⟨r, rfl⟩ | hi := Reg.index_cases i
  · exact arithmetic_onlyFault_of_gt (regSource_index r s) (h.resolve_right r.not_gt_index)
  · exact arithmetic_onlyFault_of_source (regSource_of_gt s hi)

/-- Settles O19: an immediate source always has a value, so a good destination takes the ALU's result and a bad one raises.
The encodings are the encoder's own up to the opcode premise. -/
theorem addSubMulImmediateModulo256 : Obligations.AddSubMulImmediateModulo256 := by
  intro s
  refine ⟨fun dst v => ?_, fun dst v hdst => ?_, fun m dst v => ?_⟩
  · have hsrc := immSource_apply v s
    exact ⟨arithmetic_onlyRegister hsrc (aluAdd_eq_mod _ _), arithmetic_onlyRegister hsrc (aluSub_eq_mod _ _),
      arithmetic_onlyRegister hsrc (aluMul_eq_mod _ _)⟩
  · have raises (op : AluOp) := arithmetic_onlyFault_of_gt (op := op) (immSource_apply v s) hdst
    exact ⟨raises aluAdd, raises aluSub, raises aluMul⟩
  · have encoded {x y : Word} : x = y → Record.mk x dst v 0 = ⟨y, dst, v, 0⟩ := congrArg (Record.mk · dst v 0)
    exact ⟨encoded, encoded, encoded⟩

/-- Settles O20: a register source gives the register's old value, also when it is the destination itself; a bad index of
either raises. The encodings are the encoder's own up to the opcode premise. -/
theorem addSubMulRegisterModulo256 : Obligations.AddSubMulRegisterModulo256 := by
  intro s
  refine ⟨fun dst r => ?_, fun dst r hbad => ?_, fun m dst r => ?_⟩
  · have hsrc := regSource_index r s
    exact ⟨arithmetic_onlyRegister hsrc (aluAdd_eq_mod _ _), arithmetic_onlyRegister hsrc (aluSub_eq_mod _ _),
      arithmetic_onlyRegister hsrc (aluMul_eq_mod _ _)⟩
  · have raises (op : AluOp) := arithmeticRegReg_onlyFault op s hbad
    exact ⟨raises aluAdd, raises aluSub, raises aluMul⟩
  · have encoded {x y : Word} : x = y → Record.mk x dst r 0 = ⟨y, dst, r, 0⟩ := congrArg (Record.mk · dst r 0)
    exact ⟨encoded, encoded, encoded⟩

end Sys2Proof.Machine

/-! # The jump family (R110 to R113): the operand's value decides the target, and IP takes it by one raw write -/

namespace Sys2Proof.Machine

/-- Settles O28: an immediate source always has a value and a register source has one exactly for a good index (IP included);
the jump then writes IP alone, and a bad index raises before that write. The encodings are the encoder's own up to the
opcode premise. -/
theorem unconditionalJumpsWriteIp : Obligations.UnconditionalJumpsWriteIp := by
  intro s
  refine ⟨fun k => ?_, fun r => ?_, fun x => ?_, fun r => ?_, fun r hr => ⟨?_, ?_⟩, fun m x => ?_⟩
  · exact finish_onlyRegister (jumpRelative_of_ok (immSource_apply k s))
  · exact finish_onlyRegister (jumpRelative_of_ok (regSource_index r s))
  · exact finish_onlyRegister (jumpAbsolute_of_ok (immSource_apply x s))
  · exact finish_onlyRegister (jumpAbsolute_of_ok (regSource_index r s))
  · exact finish_onlyFault (jumpRelative_of_error (regSource_of_gt s hr))
  · exact finish_onlyFault (jumpAbsolute_of_error (regSource_of_gt s hr))
  · have encoded {y z : Word} : y = z → Record.mk y x 0 0 = ⟨z, x, 0, 0⟩ := congrArg (Record.mk · x 0 0)
    exact ⟨encoded, encoded, encoded, encoded⟩

end Sys2Proof.Machine

/-! # The compare family (R116, R117): the flags are the unsigned comparison, and F takes them by one raw write -/

namespace Sys2Proof.Machine

/-- R15, R116: the mask clears bit 0 and the weight of `lt` is 2, so bit 0 is the answer of the equality alone. -/
theorem eqFlag_compareFlags (f t v : Word) : eqFlag (compareFlags f t v) = decide (t = v) := by
  unfold eqFlag compareFlags
  by_cases heq : t = v <;> by_cases hlt : t < v <;> simp [heq, hlt]

/-- R15, R116: the mask clears bit 1 and the weight of `eq` is 1, so bit 1 is the answer of the order alone. -/
theorem ltFlag_compareFlags (f t v : Word) : ltFlag (compareFlags f t v) = decide (t < v) := by
  unfold ltFlag compareFlags
  by_cases heq : t = v <;> by_cases hlt : t < v <;> simp [heq, hlt]

/-- R116: the mask keeps bits 7..2, and neither flag's weight reaches them; a word has no bit above 7. -/
theorem getLsbD_compareFlags_of_two_le (f t v : Word) {k : Nat} (hk : 2 ≤ k) :
    (compareFlags f t v).getLsbD k = f.getLsbD k := by
  obtain h8 | h8 := Nat.lt_or_ge k 8
  · have hmask : (0xFC : Word).getLsbD k = true := by interval_cases k <;> rfl
    have heq : (if t = v then 0x01 else 0 : Word).getLsbD k = false := by split <;> interval_cases k <;> rfl
    have hlt : (if t < v then 0x02 else 0 : Word).getLsbD k = false := by split <;> interval_cases k <;> rfl
    rw [compareFlags, BitVec.getLsbD_or, BitVec.getLsbD_or, BitVec.getLsbD_and, hmask, heq, hlt, Bool.and_true,
      Bool.or_false, Bool.or_false]
  · rw [BitVec.getLsbD_of_ge _ _ h8, BitVec.getLsbD_of_ge _ _ h8]

/-- R116: with both operands resolved a compare writes F alone: `eq` and `lt` from the unsigned values, bits 7..2 kept. The
operands are those of the state before, also when the left one is F itself. -/
theorem compare_writesFlags (x : Reg) {src : Source} {s : State} {v : Word} (hsrc : src s = .ok v) :
    ∃ t, finish (compareOperands x.index src) s = .next t ∧ OnlyRegister .f (t.reg .f) s t ∧
      ((t.reg .f).getLsbD 0 = true ↔ (s.reg x).toNat = v.toNat) ∧
      ((t.reg .f).getLsbD 1 = true ↔ (s.reg x).toNat < v.toNat) ∧
      ∀ k, 2 ≤ k → (t.reg .f).getLsbD k = (s.reg .f).getLsbD k := by
  obtain ⟨t, hnext, hF, frame⟩ := finish_onlyRegister (compare_index x hsrc)
  refine ⟨t, hnext, ⟨rfl, frame⟩, ?_, ?_, fun k hk => ?_⟩ <;> rw [hF]
  · exact (Bool.eq_iff_iff.1 (eqFlag_compareFlags _ _ _)).trans (decide_eq_true_iff.trans BitVec.toNat_inj.symm)
  · exact (Bool.eq_iff_iff.1 (ltFlag_compareFlags _ _ _)).trans (decide_eq_true_iff.trans BitVec.lt_def)
  · exact getLsbD_compareFlags_of_two_le _ _ _ hk

/-- R75: a compare of registers with a bad index raises InvalidRegister: the right operand's is looked at first, and a good
right operand leaves the left one's to be the bad one. -/
theorem compareRegReg_onlyFault {a b : Word} (s : State) (h : 7 < a ∨ 7 < b) :
    ∃ t, finish (compareOperands a (regSource b)) s = .next t ∧ OnlyFault .invalidRegister s t := by
  obtain ⟨r, rfl⟩ | hb := Reg.index_cases b
  · exact finish_onlyFault (compare_of_gt (regSource_index r s) (h.resolve_right r.not_gt_index))
  · exact finish_onlyFault (compare_of_error (regSource_of_gt s hb))

/-- Settles O29: an immediate right operand always has a value and a register one exactly for a good index; the compare then
writes the flags, and a bad index of either operand raises before that write. The encodings are the encoder's own up to the
opcode premise. -/
theorem compareWritesTwoFlagBits : Obligations.CompareWritesTwoFlagBits := by
  intro s
  refine ⟨fun x y => ?_, fun a b hbad => ?_, fun x v => ?_, fun a v ha => ?_, fun m a x => ⟨?_, ?_⟩⟩
  · exact compare_writesFlags x (regSource_index y s)
  · exact compareRegReg_onlyFault s hbad
  · exact compare_writesFlags x (immSource_apply v s)
  · exact finish_onlyFault (compare_of_gt (immSource_apply v s) ha)
  · exact congrArg (Record.mk · a x 0)
  · exact congrArg (Record.mk · a x 0)

end Sys2Proof.Machine

/-! # The conditional jumps on an immediate (R120, R122): with `eq` set the jump itself, with `eq` clear the same state -/

namespace Sys2Proof.Machine

/-- R120: performed, a conditional jump is the jump, here one that writes IP alone. -/
theorem finish_ifEqual_onlyIp {jump : Primitive} {s : State} {v : Word} (heq : eqFlag (s.reg .f) = true)
    (hjump : jump s = .ok (s.setReg .ip v)) :
    ∃ t, finish (ifEqual jump) s = .next t ∧ OnlyRegister .ip v s t :=
  finish_onlyRegister ((ifEqual_of_eq heq).trans hjump)

/-- R120: not performed, whatever the jump, the next state is the very state given. -/
theorem finish_ifEqual_of_ne (jump : Primitive) {s : State} (hne : eqFlag (s.reg .f) = false) :
    finish (ifEqual jump) s = .next s :=
  finish_of_ok (ifEqual_of_ne hne)

/-- Settles O30: an immediate source always has a value, so a jump that is performed writes IP alone; one that is not leaves
the state as it was. The encodings are the encoder's own up to the opcode premise. -/
theorem conditionalJumpOnImmediate : Obligations.ConditionalJumpOnImmediate := by
  intro s x
  have hsrc := immSource_apply x s
  refine ⟨fun taken => ⟨?_, ?_⟩, fun untaken => ⟨?_, ?_⟩, fun m => ⟨?_, ?_⟩⟩
  · exact finish_ifEqual_onlyIp taken (jumpRelative_of_ok hsrc)
  · exact finish_ifEqual_onlyIp taken (jumpAbsolute_of_ok hsrc)
  · exact finish_ifEqual_of_ne _ untaken
  · exact finish_ifEqual_of_ne _ untaken
  · exact congrArg (Record.mk · x 0 0)
  · exact congrArg (Record.mk · x 0 0)

end Sys2Proof.Machine

/-! # ArithmeticFault (R133): a DIV of a zero divisor latches it, and no other instruction does -/

namespace Sys2Proof.Machine

/-- R75: with both operands resolved, the ALU's fault is raised before the destination's write. -/
theorem arithmetic_onlyFault_of_alu {op : AluOp} {src : Source} {s : State} {v : Word} {r : Reg} {k : FaultKind}
    (hsrc : src s = .ok v) (hop : op (s.reg r) v = .error k) :
    ∃ t, finish (arithmetic op r.index src) s = .next t ∧ OnlyFault k s t :=
  finish_onlyFault (by rw [arithmetic_index r hsrc, hop]; rfl)

/-- A fault newly in the latch is one the instruction raised: by its own checks, or by the second micro-op of a POP. -/
theorem ExecEffect.raised_of_latched {i : Instr} {s t : State} {k : FaultKind} (he : ExecEffect i s t)
    (hs : s.fault ≠ some k) (ht : t.fault = some k) :
    MayFault i s k ∨ ∃ x, i = .popR x ∧ (k = .memoryGuardViolation ∨ (k = .invalidRegister ∧ 7 < x)) := by
  cases he with
  | unchanged | register | store | push | pop => exact absurd ht hs
  | fault k' hmay =>
    obtain rfl : k' = k := Option.some.inj ht
    exact .inl hmay
  | popFault k' x hi hk =>
    obtain rfl : k' = k := Option.some.inj ht
    exact .inr ⟨x, hi, hk⟩

/-- Settles O22: both divisors resolve to 0, which the ALU refuses; conversely ArithmeticFault is no fault of a POP, so the
instruction's own checks raised it, and the table of what each may raise leaves only such a division. -/
theorem arithmeticFaultIsDivisionByZeroAlone : Obligations.ArithmeticFaultIsDivisionByZeroAlone := by
  refine ⟨fun s dst => ?_, fun s dst r hzero => ?_, fun i s t hs hexec ht => ?_⟩
  · exact arithmetic_onlyFault_of_alu (immSource_apply 0 s) (aluDiv_zero _)
  · have hsrc : regSource r.index s = .ok 0 := hzero ▸ regSource_index r s
    exact arithmetic_onlyFault_of_alu hsrc (aluDiv_zero _)
  · obtain hmay | ⟨x, -, hguard | ⟨hindex, -⟩⟩ := (exec_cases hexec).raised_of_latched hs ht
    · exact hmay.zeroDivisor rfl
    · cases hguard
    · cases hindex

end Sys2Proof.Machine

/-! # The end state of Load (R153, R154) -/

namespace Sys2Proof.Machine

@[simp] theorem reg_encodeAt_of_ne (s : State) (r : Record) {q : Reg} (h : q ≠ .ip) : (encodeAt s r).reg q = s.reg q := by
  simp [encodeAt, h]

@[simp] theorem fault_encodeAt (s : State) (r : Record) : (encodeAt s r).fault = s.fault := rfl

/-- Encode leaves the cells above its block alone, when the block does not wrap through address 0. -/
theorem cell_encodeAt_of_ge {s : State} (r : Record) {a : Word} (h : (s.reg .ip).toNat + 4 ≤ a.toNat) :
    (encodeAt s r).cell a = s.cell a := by
  rw [encodeAt, State.cell_setReg, State.cell_setCell_of_ne _ _ (by bv_omega), State.cell_setCell_of_ne _ _ (by bv_omega),
    State.cell_setCell_of_ne _ _ (by bv_omega), State.cell_setCell_of_ne _ _ (by bv_omega)]

/-- R153: a block stays in place while the next record is encoded above it. -/
theorem HoldsRecord.after_encodeAt {s : State} {b : Word} {r : Record} (hold : HoldsRecord s b r) (q : Record)
    (hbelow : b.toNat + 4 ≤ (s.reg .ip).toNat) (hwrap : (s.reg .ip).toNat ≤ 252) : HoldsRecord (encodeAt s q) b r := by
  obtain ⟨hop, h1, h2, h3⟩ := hold
  have keep {a : Word} (ha : a < s.reg .ip) : (encodeAt s q).cell a = s.cell a := cell_encodeAt_of_lt q ha hwrap
  exact ⟨(keep (by bv_omega)).trans hop, (keep (by bv_omega)).trans h1, (keep (by bv_omega)).trans h2,
    (keep (by bv_omega)).trans h3⟩

theorem reg_encodeProgram_of_ne (program : List Record) (s : State) {q : Reg} (h : q ≠ .ip) :
    (encodeProgram program s).reg q = s.reg q := by
  induction program with
  | nil => exact State.reg_setReg_of_ne s 0 h
  | cons r rest ih => rw [encodeProgram_cons, reg_encodeAt_of_ne _ r h, ih]

theorem fault_encodeProgram (program : List Record) (s : State) : (encodeProgram program s).fault = s.fault := by
  induction program with
  | nil => rfl
  | cons r rest ih => rw [encodeProgram_cons, fault_encodeAt, ih]

theorem toNat_ip_encodeProgram {program : List Record} (hlen : program.length ≤ 63) (s : State) :
    ((encodeProgram program s).reg .ip).toNat = 4 * program.length := by
  rw [reg_ip_encodeProgram, BitVec.toNat_ofNat]
  omega

/-- R153: the sequence fills the cells below `4N` and leaves all others alone. -/
theorem cell_encodeProgram_of_ge {program : List Record} (hlen : program.length ≤ 63) (s : State) {a : Word}
    (ha : 4 * program.length ≤ a.toNat) : (encodeProgram program s).cell a = s.cell a := by
  induction program with
  | nil => rfl
  | cons r rest ih =>
    rw [List.length_cons] at hlen ha
    have hip := toNat_ip_encodeProgram (program := rest) (by omega) s
    rw [encodeProgram_cons, cell_encodeAt_of_ge r (by omega), ih (by omega) (by omega)]

/-- R153: the sequence lies in memory last instruction first. Its head is the record encoded last, and every other block
lies below that one. -/
theorem holdsRecord_encodeProgram {program : List Record} (hlen : program.length ≤ 63) (s : State) {j : Nat} {r : Record}
    (hj : program[j]? = some r) :
    HoldsRecord (encodeProgram program s) (BitVec.ofNat 8 (4 * (program.length - 1 - j))) r := by
  induction program generalizing j with
  | nil => cases hj
  | cons q rest ih =>
    rw [List.length_cons] at hlen
    rw [encodeProgram_cons]
    cases j with
    | zero =>
      obtain rfl : q = r := Option.some.inj hj
      rw [List.length_cons, Nat.add_sub_cancel, Nat.sub_zero, ← reg_ip_encodeProgram rest s]
      exact holdsRecord_encodeAt _ q
    | succ j =>
      rw [List.getElem?_cons_succ] at hj
      obtain ⟨hlt, -⟩ := List.getElem?_eq_some_iff.1 hj
      have hip := toNat_ip_encodeProgram (program := rest) (by omega) s
      have hplace : rest.length + 1 - 1 - (j + 1) = rest.length - 1 - j := by omega
      rw [List.length_cons, hplace]
      refine (ih (by omega) hj).after_encodeAt q ?_ (by omega)
      rw [BitVec.toNat_ofNat]
      omega

/-- R153: after the last record, SP and SB take the IP that encode left, `4N`, and IP the highest address of the code. -/
theorem loadInto_eq_setReg {program : List Record} (hne : program ≠ []) (s : State) :
    loadInto program s =
      (((encodeProgram program s).setReg .sp (BitVec.ofNat 8 (4 * program.length))).setReg .sb
        (BitVec.ofNat 8 (4 * program.length))).setReg .ip (BitVec.ofNat 8 (4 * program.length - 1)) := by
  have hpos := List.length_pos_iff.2 hne
  have hsub : BitVec.ofNat 8 (4 * program.length) - 1 = BitVec.ofNat 8 (4 * program.length - 1) := by bv_omega
  rw [← hsub, ← reg_ip_encodeProgram program s]
  cases program with
  | nil => exact absurd rfl hne
  | cons r rest => rfl

/-- R153: of the registers, Load writes IP, SP and SB alone. -/
theorem reg_loadInto_of_notMem {program : List Record} (hne : program ≠ []) (s : State) {q : Reg}
    (h : q ∉ [Reg.ip, .sp, .sb]) : (loadInto program s).reg q = s.reg q := by
  simp only [List.mem_cons, List.not_mem_nil, or_false, not_or] at h
  obtain ⟨hip, hsp, hsb⟩ := h
  rw [loadInto_eq_setReg hne, State.reg_setReg_of_ne _ _ hip, State.reg_setReg_of_ne _ _ hsb,
    State.reg_setReg_of_ne _ _ hsp, reg_encodeProgram_of_ne program s hip]

theorem fault_loadInto {program : List Record} (hne : program ≠ []) (s : State) :
    (loadInto program s).fault = s.fault := by
  rw [loadInto_eq_setReg hne]
  exact fault_encodeProgram program s

/-- R24. -/
theorem State.reg_reset (q : Reg) : State.reset.reg q = 0 := by
  cases q <;> rfl

/-- R24: the latch is none and IP is 0. -/
theorem State.status_reset : State.reset.status = .halted :=
  State.status_halted.2 ⟨rfl, State.reg_reset .ip⟩

/-- Settles O48: the loaded cells are those of the encoded sequence, which lies at its place and leaves the other cells of the
reset state alone; of the registers three are written, and IP, which is at most 251, does not become 0. -/
theorem loadPlacesTheProgramInReverse : Obligations.LoadPlacesTheProgramInReverse := by
  intro program hpos hlen
  have hne : program ≠ [] := List.length_pos_iff.1 hpos
  obtain ⟨hcell, -⟩ := loadInto_of_ne_nil hne State.reset
  have hip : (loadInto program State.reset).reg .ip = BitVec.ofNat 8 (4 * program.length - 1) := by
    rw [loadInto_eq_setReg hne, State.reg_setReg_self]
  have kept (q : Reg) (hq : q ∉ [Reg.ip, .sp, .sb]) : (loadInto program State.reset).reg q = 0 :=
    (reg_loadInto_of_notMem hne State.reset hq).trans (State.reg_reset q)
  have hfault : (loadInto program State.reset).fault = none := fault_loadInto hne State.reset
  refine ⟨_, _, load_start hlen, rfl, fun j r hj => ?_, fun a ha => ?_, hip, ?_, ?_, kept .a (by decide),
    kept .b (by decide), kept .c (by decide), kept .d (by decide), kept .f (by decide), hfault,
    State.status_running.2 ⟨hfault, ?_⟩⟩
  · simp only [hcell, BitVec.ofNat_add]
    exact holdsRecord_encodeProgram hlen State.reset hj
  · rw [hcell, cell_encodeProgram_of_ge hlen State.reset ha, State.cell_reset]
  · simp [loadInto_eq_setReg hne]
  · simp [loadInto_eq_setReg hne]
  · rw [hip]
    bv_omega

/-- R160: Execute makes no step of a machine that is not Running. -/
theorem executeWith_of_not_running (m : OpcodeMap) (fuel : Nat) {s : State} (h : s.status ≠ .running) :
    executeWith m fuel s = .next s := by
  cases hs : s.status with
  | running => exact absurd hs h
  | halted | faulted => cases fuel <;> simp [executeWith, hs]

/-- Settles O49: loading nothing writes 0 to an IP that is 0, and the reset state, which is Halted, is not stepped. -/
theorem loadOfNothingStaysHalted : Obligations.LoadOfNothingStaysHalted := by
  refine ⟨⟨_, load_start (Nat.zero_le 63), rfl⟩, State.status_reset, fun m fuel => ?_⟩
  exact executeWith_of_not_running m fuel (by rw [State.status_reset]; decide)

end Sys2Proof.Machine

/-! # Decoding and encoding (R54 to R59): each undoes the other, up to the unused fields -/

namespace Sys2Proof

theorem decodeWith_of_value {m : OpcodeMap} {k : Mnemonic} {r : Record} (h : m.value k = r.operation) :
    decodeWith m r = .ok (k.withOperands r.operand1 r.operand2) := by
  rw [decodeWith, ← h, Mnemonic.ofOperation_value]

/-- Settles O8: the operation byte looks the mnemonic up again, because the map is injective, and the operands come back from
the fields they were put in. -/
theorem decodeOfEncodeIsTheInstruction : Obligations.DecodeOfEncodeIsTheInstruction := by
  intro m i
  rw [decodeWith_of_value (encodeWith_operation m i).symm, Instr.withOperands_encodeWith]

/-- R54, R55: the encoder takes the operands back out of what `withOperands` made of them; a one-operand mnemonic has kept
only the first. -/
theorem encodeWith_withOperands (m : OpcodeMap) (k : Mnemonic) (o1 o2 : Word) :
    encodeWith m (k.withOperands o1 o2) = ⟨m.value k, o1, if k ∈ Machine.oneOperand then 0 else o2, 0⟩ := by
  cases k <;> rfl

/-- Settles O9: what decodes is a mnemonic with the record's operands, and the encoder gives those back. -/
theorem encodeOfDecodeZeroesOnlyUnusedFields : Obligations.EncodeOfDecodeZeroesOnlyUnusedFields := by
  intro m r i hdecode
  obtain ⟨k, hk, hok⟩ | ⟨-, herror⟩ := decodeWith_cases m r
  · obtain rfl : k.withOperands r.operand1 r.operand2 = i := Except.ok.inj (hok.symm.trans hdecode)
    rw [encodeWith_withOperands, Mnemonic.mnemonic_withOperands, hk]
  · cases herror.symm.trans hdecode

/-- Settles O10: the two answers of the decoder exclude each other, and each names its condition on the operation byte. -/
theorem decoderAcceptsExactlyTheOpcodeMap : Obligations.DecoderAcceptsExactlyTheOpcodeMap := by
  intro m r
  obtain ⟨k, hk, hok⟩ | ⟨hnone, herror⟩ := decodeWith_cases m r
  · exact ⟨⟨fun _ => ⟨k, hk⟩, fun _ => ⟨_, hok⟩⟩, fun hnone => absurd hk (hnone k)⟩
  · refine ⟨⟨fun ⟨i, hi⟩ => ?_, fun ⟨k, hk⟩ => absurd hk (hnone k)⟩, fun _ => herror⟩
    cases herror.symm.trans hi

/-- Settles O11: each printed word is the encoding of its instruction under the default map. -/
theorem printedBytesDecodeUnderTheDefaultMap : Obligations.PrintedBytesDecodeUnderTheDefaultMap := by
  have decodes (i : Instr) : decode (encode i) = .ok i := decodeOfEncodeIsTheInstruction defaultOpcodeMap i
  exact ⟨decodes (.addRI 3 10), decodes (.popR 4), decodes (.movAM 20 4), decodes (.movMM 3 4), decodes (.divRR 3 4),
    decodes (.jmprR 3), decodes (.cmpRR 3 4), decodes (.jerR 3)⟩

end Sys2Proof

/-! # What every instruction keeps, by the cases of `ExecEffect` -/

namespace Sys2Proof.Machine

theorem exec_next (i : Instr) (s : State) : ∃ t, exec i s = .next t := by
  cases i with
  | pushI | pushR => exact sequenceMicroOps_next _ _ s
  | popR x => exact sequenceMicroOps_next (subRI 1 1) (movRM x 1) s
  | jmprI | jmpaI => exact ⟨_, rfl⟩
  | _ => exact finish_next _ s

/-- Settles O7: every instruction ends one primitive or two micro-ops, and a step that runs none has its next state written
out. -/
theorem everyInstructionAndStepAnswersANextState : Obligations.EveryInstructionAndStepAnswersANextState := by
  refine ⟨exec_next, fun m s => ?_⟩
  obtain ⟨-, hstep⟩ | ⟨-, i, -, hstep⟩ | ⟨-, -, hstep⟩ := stepWith_cases m s
  · exact ⟨_, hstep⟩
  · rw [hstep]
    exact exec_next i _
  · exact ⟨_, hstep⟩

/-- Settles O33: a register write is to a written register by the table, PUSH and POP write SP, and no fault or store touches a
register; POP's destination is the other register the table gives it. -/
theorem instructionsKeepOtherRegisters : Obligations.InstructionsKeepOtherRegisters := by
  intro i s t q hexec hq
  cases exec_cases hexec with
  | unchanged | store | fault => rfl
  | register r v hn hr => exact s.reg_setReg_of_ne v fun e => hq (e ▸ hr)
  | push v hsp => exact State.reg_setReg_of_ne _ _ fun e => hq (e ▸ hsp)
  | pop r hi =>
    obtain ⟨hsp, hr⟩ : q ≠ .sp ∧ q ≠ r := by simpa [hi, writtenRegisters] using hq
    rw [State.reg_setReg_of_ne _ _ hr, State.reg_setReg_of_ne _ _ hsp]
  | popFault k x hi =>
    have hsp : q ≠ .sp := fun e => hq (by simp [hi, writtenRegisters, e])
    exact s.reg_setReg_of_ne _ hsp

/-- Settles O34: only a store and a PUSH write a cell, both the one at the store address. -/
theorem instructionsKeepOtherCells : Obligations.InstructionsKeepOtherCells := by
  intro i s t a hexec ha
  cases exec_cases hexec with
  | unchanged | register | pop | fault | popFault => rfl
  | store x v hx | push v hi hx => exact s.cell_setCell_of_ne v fun e => ha (e ▸ hx)

/-- Settles O37: a fault newly in the latch is one the instruction's own checks may raise, by the table, or a fault of POP's
second micro-op, whose two kinds the table gives to POP. -/
theorem instructionsRaiseOnlyTheirFaultKinds : Obligations.InstructionsRaiseOnlyTheirFaultKinds := by
  intro i s t k hs hexec ht
  obtain hmay | ⟨x, rfl, hguard | ⟨hindex, -⟩⟩ := (exec_cases hexec).raised_of_latched (by simp [hs]) ht
  · exact hmay.listed
  · simp [hguard, Instr.mnemonic, raisedBy]
  · simp [hindex, Instr.mnemonic, raisedBy]

/-- Settles O38: InvalidRegister comes from a register field above 7, in the instruction's own checks or in POP's
destination, and a well-formed instruction has none. -/
theorem wellFormedInstructionsNeverRaiseInvalidRegister : Obligations.WellFormedInstructionsNeverRaiseInvalidRegister := by
  intro i s t hwf hs hexec ht
  suffices i.wellFormed = false from Bool.false_ne_true (this.symm.trans hwf)
  obtain hmay | ⟨x, rfl, hguard | ⟨-, hx⟩⟩ := (exec_cases hexec).raised_of_latched hs ht
  · exact hmay.illFormed rfl
  · cases hguard
  · exact wellFormed_of_gt (by simp [Instr.registerFields]) hx

end Sys2Proof.Machine

/-! # One step (R70): the decoded instruction after the fetch, InvalidOpcode, or nothing -/

namespace Sys2Proof.Machine

/-- Settles O6: there is no step, and so no first step of an Execute. -/
theorem haltedOrFaultedMachineStaysAsItIs : Obligations.HaltedOrFaultedMachineStaysAsItIs :=
  fun m _ fuel h => ⟨stepWith_of_not_running m h, executeWith_of_not_running m fuel h⟩

theorem stepWith_of_decodeWith {m : OpcodeMap} {s : State} {i : Instr} (hrun : s.status = .running)
    (hdecode : decodeWith m (fetch s).1 = .ok i) : stepWith m s = exec i (s.setReg .ip (s.reg .ip - 4)) := by
  rw [stepWith_of_running m hrun, dispatch, hdecode]

theorem stepWith_of_encodeWith {m : OpcodeMap} {s : State} {i : Instr} (hrun : s.status = .running)
    (hfetch : (fetch s).1 = encodeWith m i) : stepWith m s = exec i (s.setReg .ip (s.reg .ip - 4)) :=
  stepWith_of_decodeWith hrun (hfetch ▸ decodeOfEncodeIsTheInstruction m i)

/-- Settles O4: the four cells are the record the fetch returns, and the fetch writes IP alone. -/
theorem stepRunsTheDecodedInstruction : Obligations.StepRunsTheDecodedInstruction := by
  intro m s i hrun hdecode
  have hstep : stepWith m s = _ := stepWith_of_decodeWith hrun ((fetch_fst s).symm ▸ hdecode)
  refine ⟨_, onlyRegister_setReg s .ip _, hstep, ?_⟩
  rintro rfl
  exact hstep

/-- Settles O5: of all a step can do, only InvalidOpcode is left, taken in the state the fetch made. -/
theorem undefinedOpcodeRaisesInvalidOpcode : Obligations.UndefinedOpcodeRaisesInvalidOpcode := by
  intro m s hrun hnone
  have herror := (decoderAcceptsExactlyTheOpcodeMap m (fetch s).1).2 (by rwa [fetch_fst])
  refine ⟨(s.setReg .ip (s.reg .ip - 4)).takeFault .invalidOpcode, ?_, rfl, ?_, fun r hr => ?_, fun a => rfl⟩
  · rw [stepWith_of_running m hrun, dispatch, herror]
  · exact s.reg_setReg_self .ip _
  · exact s.reg_setReg_of_ne _ hr

/-- R166: 4 is even, so the fetch keeps the parity of IP. -/
theorem getLsbD_zero_sub_four (w : Word) : (w - 4).getLsbD 0 = w.getLsbD 0 := by
  have lsb (x : Word) : x.getLsbD 0 = decide (x.toNat % 2 = 1) := Nat.testBit_zero _
  rw [lsb, lsb, decide_eq_decide]
  bv_omega

/-- Settles O35: IP leaves the fetch 4 lower, the instruction keeps it, and its parity is the old one. -/
theorem sequentialStepLowersIpByFour : Obligations.SequentialStepLowersIpByFour := by
  intro m s i hrun hdecode hip
  obtain ⟨t, ht⟩ := exec_next i (s.setReg .ip (s.reg .ip - 4))
  have hkept : t.reg .ip = s.reg .ip - 4 :=
    (instructionsKeepOtherRegisters i _ t .ip ht hip).trans (s.reg_setReg_self .ip _)
  refine ⟨t, (stepWith_of_decodeWith hrun hdecode).trans ht, hkept, fun hodd => ?_⟩
  have hodd' : (t.reg .ip).getLsbD 0 = true := by
    rw [hkept, getLsbD_zero_sub_four, hodd]
  exact ⟨hodd', fun hzero => by simp [hzero] at hodd'⟩

end Sys2Proof.Machine

/-! # Jumps through a whole step (R78, R167, R168): the fetch and the jump both write IP alone -/

namespace Sys2Proof.Machine

theorem OnlyRegister.trans {r : Reg} {v w : Word} {s t u : State} (hst : OnlyRegister r v s t)
    (htu : OnlyRegister r w t u) : OnlyRegister r w s u := by
  obtain ⟨-, hreg, hcell, hfault⟩ := hst
  obtain ⟨hr, hreg', hcell', hfault'⟩ := htu
  exact ⟨hr, fun q hq => (hreg' q hq).trans (hreg q hq), fun a => (hcell' a).trans (hcell a), hfault'.trans hfault⟩

/-- A step whose instruction writes `x` to IP and nothing else changes IP alone, to `x`. -/
theorem stepWith_onlyIp {m : OpcodeMap} {s : State} {i : Instr} {x : Word} (hrun : s.status = .running)
    (hfetch : (fetch s).1 = encodeWith m i)
    (hexec : ∃ t, exec i (s.setReg .ip (s.reg .ip - 4)) = .next t ∧ OnlyRegister .ip x (s.setReg .ip (s.reg .ip - 4)) t) :
    ∃ t, stepWith m s = .next t ∧ OnlyRegister .ip x s t := by
  obtain ⟨t, ht, honly⟩ := hexec
  exact ⟨t, (stepWith_of_encodeWith hrun hfetch).trans ht, (onlyRegister_setReg s .ip _).trans honly⟩

/-- Settles O32: the relative jump subtracts its offset from the IP the fetch left. -/
theorem relativeAndAbsoluteJumpsReachOneTarget : Obligations.RelativeAndAbsoluteJumpsReachOneTarget := by
  intro m s x hrun hfetch
  obtain ⟨relative, -, absolute, -⟩ := unconditionalJumpsWriteIp (s.setReg .ip (s.reg .ip - 4))
  obtain hfetch | hfetch := hfetch
  · have htarget : (s.setReg .ip (s.reg .ip - 4)).reg .ip - (s.reg .ip - 4 - x) = x := by
      rw [State.reg_setReg_self, sub_sub_cancel]
    have hexec := relative (s.reg .ip - 4 - x)
    rw [htarget] at hexec
    exact stepWith_onlyIp hrun hfetch hexec
  · exact stepWith_onlyIp hrun hfetch (absolute x)

/-- A Running machine in which IP alone was set to 0 is Halted: its latch was empty. -/
theorem OnlyRegister.status_halted {s t : State} (hrun : s.status = .running) (h : OnlyRegister .ip 0 s t) :
    t.status = .halted := by
  obtain ⟨hip, -, -, hfault⟩ := h
  exact State.status_halted.2 ⟨hfault.trans (State.status_running.1 hrun).1, hip⟩

/-- Settles O54: both instructions write 0 to IP alone; the index of IP is 0. -/
theorem jumpOrMoveToZeroHaltsUnderEveryMap : Obligations.JumpOrMoveToZeroHaltsUnderEveryMap := by
  intro m s hrun hfetch
  suffices ∃ t, stepWith m s = .next t ∧ OnlyRegister .ip 0 s t by
    obtain ⟨t, hstep, honly⟩ := this
    exact ⟨t, hstep, honly, honly.status_halted hrun⟩
  obtain hfetch | hfetch := hfetch
  · obtain ⟨-, -, jump, -⟩ := unconditionalJumpsWriteIp (s.setReg .ip (s.reg .ip - 4))
    exact stepWith_onlyIp hrun hfetch (jump 0)
  · obtain ⟨mov, -⟩ := moveImmediateOrRegisterToRegister (s.setReg .ip (s.reg .ip - 4))
    exact stepWith_onlyIp hrun hfetch (mov .ip 0)

/-- Settles O55: four zero cells are the encoding of `mov IP, 0` under the default map. -/
theorem zeroCellsHaltUnderTheDefaultMap : Obligations.ZeroCellsHaltUnderTheDefaultMap := by
  intro s hrun hzero
  have h0 : s.cell (s.reg .ip) = 0 := by simpa using hzero 0 (by decide)
  have hfetch : (fetch s).1 = encodeWith defaultOpcodeMap (.movRI 0 0) := by
    rw [fetch_fst, h0, hzero 1 (by decide), hzero 2 (by decide), hzero 3 (by decide)]
    rfl
  exact jumpOrMoveToZeroHaltsUnderEveryMap defaultOpcodeMap s hrun (.inr hfetch)

end Sys2Proof.Machine

/-! # Faulting steps (R138, R139): the fault ends the step in the state the fetch, or POP's first micro-op, left -/

namespace Sys2Proof.Machine

/-- R138, R139 (C1): an instruction that raises from an empty latch has changed nothing, or it is a POP and has lowered SP. -/
theorem ExecEffect.eq_takeFault {i : Instr} {s t : State} {k : FaultKind} (he : ExecEffect i s t) (hs : s.fault = none)
    (ht : t.fault = some k) :
    ((∀ x, i ≠ .popR x) ∧ t = s.takeFault k) ∨
      (∃ x, i = .popR x) ∧ t = (s.setReg .sp (s.reg .sp - 1)).takeFault k := by
  cases he with
  | unchanged | register | store | push | pop => cases hs.symm.trans ht
  | fault k' hmay =>
    obtain rfl : k' = k := Option.some.inj ht
    exact .inl ⟨hmay.notPop, rfl⟩
  | popFault k' x hi =>
    obtain rfl : k' = k := Option.some.inj ht
    exact .inr ⟨⟨x, hi⟩, rfl⟩

/-- R138, R139 (C1): the same of a whole step, an undefined opcode included. -/
theorem stepWith_eq_takeFault {m : OpcodeMap} {s t : State} {k : FaultKind} (hrun : s.status = .running)
    (hstep : stepWith m s = .next t) (ht : t.fault = some k) :
    ((¬ ∃ dst, decodeWith m (fetch s).1 = .ok (.popR dst)) ∧ t = (s.setReg .ip (s.reg .ip - 4)).takeFault k) ∨
      (∃ dst, decodeWith m (fetch s).1 = .ok (.popR dst)) ∧
        t = ((s.setReg .ip (s.reg .ip - 4)).setReg .sp (s.reg .sp - 1)).takeFault k := by
  obtain ⟨hidle, -⟩ | ⟨-, i, hdecode, hexec⟩ | ⟨-, hnone, hinvalid⟩ := stepWith_cases m s
  · exact absurd hrun hidle
  · have hnofault : (s.setReg .ip (s.reg .ip - 4)).fault = none := (State.status_running.1 hrun).1
    obtain ⟨hi, rfl⟩ | ⟨⟨x, rfl⟩, rfl⟩ := (exec_cases (hexec.symm.trans hstep)).eq_takeFault hnofault ht
    · exact .inl ⟨fun ⟨dst, hpop⟩ => hi dst (Except.ok.inj (hdecode.symm.trans hpop)), rfl⟩
    · exact .inr ⟨⟨x, hdecode⟩, rfl⟩
  · cases hinvalid.symm.trans hstep
    cases ht
    have herror := (decoderAcceptsExactlyTheOpcodeMap m (fetch s).1).2 hnone
    exact .inl ⟨fun ⟨dst, hpop⟩ => absurd (herror.symm.trans hpop) nofun, rfl⟩

/-- Settles O36: the two states a faulting step can end in are written out, and a read of each register decides the clauses. -/
theorem faultingStepKeepsAllButIpAndPoppedSp : Obligations.FaultingStepKeepsAllButIpAndPoppedSp := by
  intro m s t k hrun hstep ht
  obtain ⟨hpop, rfl⟩ | ⟨hpop, rfl⟩ := stepWith_eq_takeFault hrun hstep ht
  · refine ⟨?_, fun h => absurd h hpop, fun _ => ?_, fun r hip _ => ?_, fun a => rfl⟩
    · simp
    · simp
    · simp [hip]
  · refine ⟨?_, fun _ => ?_, fun h => absurd hpop h, fun r hip hsp => ?_, fun a => rfl⟩
    · simp
    · simp
    · simp [hip, hsp]

end Sys2Proof.Machine

/-! # The checked register ports (R12, R74) -/

namespace Sys2Proof.Machine

/-- Settles O12: an index is a register's or above 7; a write of a good one is one raw write. -/
theorem checkedPortsSelectEightRegisters : Obligations.CheckedPortsSelectEightRegisters :=
  fun s => ⟨s.rd_index, fun _ hi => s.rd_of_gt hi, fun r v => ⟨_, s.wr_index r v, onlyRegister_setReg s r v⟩,
    fun _ v hi => s.wr_of_gt v hi⟩

end Sys2Proof.Machine

/-! # The canonical form (log entry 20): a memory lists exactly the addresses that do not read as unlisted -/

namespace Sys2Proof.Machine

/-- With rising addresses an entry hides no other, so each is what a read of its address finds. -/
theorem Memory.read_of_mem {m : Memory} (hrise : m.Pairwise (fun c c' => c.1 < c'.1)) {c : Host.Cell} (hc : c ∈ m) :
    m.read c.1 = c.2 := by
  induction m with
  | nil => cases hc
  | cons e rest ih =>
    rw [List.pairwise_cons] at hrise
    obtain ⟨hfirst, hrest⟩ := hrise
    obtain rfl | hc := List.mem_cons.1 hc
    · simp [Memory.read]
    · simp [Memory.read, (hfirst c hc).ne, ih hrest hc]

/-- A read that finds more than an unlisted cell holds has found an entry. -/
theorem Memory.mem_of_read_ne {m : Memory} {a : Nat} (h : m.read a ≠ Memory.unlisted) : (a, m.read a) ∈ m := by
  induction m with
  | nil => exact absurd rfl h
  | cons e rest ih =>
    by_cases hea : e.1 = a
    · subst hea
      simp [Memory.read]
    · simp only [Memory.read, if_neg hea] at h ⊢
      exact List.mem_cons_of_mem e (ih h)

/-- Every entry of a canonical memory is found, and so listed, in each memory that reads like it. -/
theorem Memory.subset_of_read_eq {m m' : Memory} (hm : m.wf) (hread : ∀ a, a < 256 → m.read a = m'.read a) : m ⊆ m' := by
  intro c hc
  obtain ⟨haddress, hbyte⟩ := hm.2 c hc
  have hfound : m'.read c.1 = c.2 := (hread c.1 haddress).symm.trans (Memory.read_of_mem hm.1 hc)
  have hlisted := Memory.mem_of_read_ne (hfound.symm ▸ hbyte)
  rwa [hfound] at hlisted

/-- Settles O43: each memory contains the other's entries, and lists with strictly rising addresses that contain each other
are equal. -/
theorem canonicalMemoriesThatReadAlikeAreEqual : Obligations.CanonicalMemoriesThatReadAlikeAreEqual := by
  intro m m' hm hm' hread
  have : Std.Irrefl fun c c' : Host.Cell => c.1 < c'.1 := ⟨fun c => lt_irrefl c.1⟩
  have : Std.Antisymm fun c c' : Host.Cell => c.1 < c'.1 := ⟨fun _ _ h h' => absurd h' h.asymm⟩
  exact List.Subset.antisymm_of_pairwise hm.1 hm'.1 (Memory.subset_of_read_eq hm hread)
    (Memory.subset_of_read_eq hm' fun a ha => (hread a ha).symm)

end Sys2Proof.Machine

/-! # The machine invariant: kept by the raw updates, so by every instruction and every step -/

namespace Sys2Proof.Machine

theorem MachineInvariant.setReg {s : State} (h : MachineInvariant s) (r : Reg) (v : Word) :
    MachineInvariant (s.setReg r v) := h

theorem MachineInvariant.setCell {s : State} (h : MachineInvariant s) (a v : Word) : MachineInvariant (s.setCell a v) := by
  obtain ⟨hmem, hfault⟩ := h
  exact ⟨State.wf_setCell a v hmem, hfault⟩

theorem MachineInvariant.takeFault {s : State} (h : MachineInvariant s) {k : FaultKind}
    (hk : k ≠ .invalidInstructionPointer) : MachineInvariant (s.takeFault k) :=
  ⟨h.1, fun e => hk (Option.some.inj e)⟩

theorem MachineInvariant.reset : MachineInvariant State.reset := ⟨Memory.wf_reset, nofun⟩

/-- Settles O40: nothing is written and nothing latched yet. -/
theorem resetStateMeetsTheInvariant : Obligations.ResetStateMeetsTheInvariant :=
  ⟨.reset, .reset, fun _ => rfl⟩

/-- Every effect is made of raw updates, and no instruction raises the reserved kind (R135). -/
theorem MachineInvariant.exec {i : Instr} {s t : State} (h : MachineInvariant s) (hexec : exec i s = .next t) :
    MachineInvariant t := by
  cases exec_cases hexec with
  | unchanged => exact h
  | register r v => exact h.setReg r v
  | store x v => exact h.setCell x v
  | push v => exact (h.setCell _ v).setReg .sp _
  | pop r => exact (h.setReg .sp _).setReg r _
  | fault k hmay =>
    refine h.takeFault ?_
    rintro rfl
    cases hmay.listed
  | popFault k x hi hk =>
    refine (h.setReg .sp _).takeFault ?_
    obtain rfl | ⟨rfl, -⟩ := hk <;> decide

/-- Settles O41: the fetch writes a register, and then an instruction runs or InvalidOpcode is taken. -/
theorem everyStepKeepsTheInvariant : Obligations.EveryStepKeepsTheInvariant := by
  intro m s t hs hstep
  obtain ⟨-, hidle⟩ | ⟨-, i, -, hexec⟩ | ⟨-, -, hinvalid⟩ := stepWith_cases m s
  · cases hidle.symm.trans hstep
    exact hs
  · exact (hs.setReg .ip _).exec (hexec.symm.trans hstep)
  · cases hinvalid.symm.trans hstep
    exact (hs.setReg .ip _).takeFault (by decide)

end Sys2Proof.Machine

/-! # Execute (R160) is a number of Steps -/

namespace Sys2Proof.Machine

theorem stepsWith_succ_of_next {m : OpcodeMap} {s u : State} (h : stepWith m s = .next u) (n : Nat) :
    stepsWith m (n + 1) s = stepsWith m n u := by
  rw [stepsWith, h]

theorem stepsWith_of_not_running {m : OpcodeMap} {s : State} (h : s.status ≠ .running) (n : Nat) :
    stepsWith m n s = .next s := by
  induction n with
  | zero => rfl
  | succ n ih => rw [stepsWith_succ_of_next (stepWith_of_not_running m h), ih]

theorem executeWith_zero_of_running {m : OpcodeMap} {s : State} (h : s.status = .running) :
    executeWith m 0 s = .fault .executeDidNotReturn := by
  rw [executeWith, h]

theorem executeWith_succ_of_running {m : OpcodeMap} {s u : State} (h : s.status = .running) (hstep : stepWith m s = .next u)
    (fuel : Nat) : executeWith m (fuel + 1) s = executeWith m fuel u := by
  rw [executeWith, h, hstep]

/-- Where there is no step, Execute and every number of Steps end in the state they started from. -/
theorem executeWith_iff_of_not_running {m : OpcodeMap} {s : State} (h : s.status ≠ .running) (fuel : Nat) (t : State) :
    executeWith m fuel s = .next t ↔ t.status ≠ .running ∧ ∃ n, n ≤ fuel ∧ stepsWith m n s = .next t := by
  rw [executeWith_of_not_running m fuel h]
  constructor
  · rintro ⟨⟩
    exact ⟨h, 0, Nat.zero_le fuel, rfl⟩
  · rintro ⟨-, n, -, hsteps⟩
    rwa [stepsWith_of_not_running h n] at hsteps

/-- A Running machine is not itself where a run ends, so the run makes its first step. -/
theorem exists_steps_iff_of_running {m : OpcodeMap} {s u : State} (hrun : s.status = .running)
    (hstep : stepWith m s = .next u) {t : State} (ht : t.status ≠ .running) (fuel : Nat) :
    (∃ n, n ≤ fuel + 1 ∧ stepsWith m n s = .next t) ↔ ∃ n, n ≤ fuel ∧ stepsWith m n u = .next t := by
  constructor
  · rintro ⟨n, hn, hsteps⟩
    cases n with
    | zero =>
      cases hsteps
      exact absurd hrun ht
    | succ n => exact ⟨n, Nat.le_of_succ_le_succ hn, (stepsWith_succ_of_next hstep n).symm.trans hsteps⟩
  · rintro ⟨n, hn, hsteps⟩
    exact ⟨n + 1, Nat.succ_le_succ hn, (stepsWith_succ_of_next hstep n).trans hsteps⟩

/-- Settles O52, by induction on the fuel: of a Running machine both sides make one step, or with no fuel left neither ends. -/
theorem executeReachesWhatStepsReach : Obligations.ExecuteReachesWhatStepsReach := by
  intro m fuel s t
  induction fuel generalizing s with
  | zero =>
    by_cases hrun : s.status = .running
    · rw [executeWith_zero_of_running hrun]
      refine ⟨nofun, fun ⟨ht, n, hn, hsteps⟩ => ?_⟩
      obtain rfl := Nat.le_zero.1 hn
      cases hsteps
      exact absurd hrun ht
    · exact executeWith_iff_of_not_running hrun 0 t
  | succ fuel ih =>
    by_cases hrun : s.status = .running
    · obtain ⟨u, hstep⟩ := everyInstructionAndStepAnswersANextState.2 m s
      rw [executeWith_succ_of_running hrun hstep, ih u]
      exact and_congr_right fun ht => (exists_steps_iff_of_running hrun hstep ht fuel).symm
    · exact executeWith_iff_of_not_running hrun (fuel + 1) t

end Sys2Proof.Machine

/-! # The session (R150 to R162): what each transaction that answers has done -/

namespace Sys2Proof.Machine

/-- Settles O1: Reset answers the start session, whatever it was given. -/
theorem resetZeroesRegistersMemoryAndLatch : Obligations.ResetZeroesRegistersMemoryAndLatch :=
  fun _ _ => ⟨Session.start, rfl, State.reg_reset, State.cell_reset, rfl, State.status_reset, rfl⟩

/-- Settles O50: the three refusals are looked at in this order, and the start session passes the first two. -/
theorem loadRefusesUsedMachinesAndLongPrograms : Obligations.LoadRefusesUsedMachinesAndLongPrograms := by
  intro p program
  refine ⟨fun x hx => ?_, fun s hs => ?_, fun hlong => ?_, fun hshort => ?_⟩
  · simp [transactWith, loadWith, hx]
  · simp [transactWith, loadWith, hs]
  · simp [transactWith, loadWith, Session.start, hlong]
  · simp [transactWith, loadWith, Session.start, Nat.not_lt.2 hshort]

/-- R151: a Load that is applied found the machine as Reset left it. -/
theorem loadWith_eq_next {n : Nat} {program : List Record} {x y : Session} (h : loadWith n program x = .next y) :
    x.machine = State.reset ∧ y = ⟨loadInto program State.reset, true⟩ := by
  unfold loadWith at h
  split_ifs at h with hloaded hmachine hlong
  cases h
  have hreset := not_not.1 hmachine
  exact ⟨hreset, by rw [hreset]⟩

theorem Session.after_eq_next {x y : Session} {o : Host.Outcome State Fault Refusal} (h : x.after o = .next y) :
    ∃ t, o = .next t ∧ y = { x with machine := t } := by
  cases o with
  | next t =>
    cases h
    exact ⟨t, rfl, rfl⟩
  | fault | refused => cases h

/-- Settles O39: Load finds no reset machine, Execute and Step find no step to make, and Inspect never changes anything. -/
theorem faultedMachineIsLeftOnlyByReset : Obligations.FaultedMachineIsLeftOnlyByReset := by
  intro p tr x y hfaulted htr
  have hidle : x.machine.status ≠ .running := by simp [hfaulted]
  cases tr with
  | reset =>
    cases htr
    exact .inr ⟨rfl, rfl⟩
  | load program =>
    obtain ⟨hreset, -⟩ := loadWith_eq_next htr
    rw [hreset, State.status_reset] at hfaulted
    cases hfaulted
  | execute fuel =>
    rw [transactWith, executeWith_of_not_running _ fuel hidle] at htr
    cases htr
    exact .inl rfl
  | step =>
    rw [transactWith, stepWith_of_not_running _ hidle] at htr
    cases htr
    exact .inl rfl
  | inspect =>
    cases htr
    exact .inl rfl

theorem MachineInvariant.stepsWith {m : OpcodeMap} {s t : State} (h : MachineInvariant s) {n : Nat}
    (hsteps : stepsWith m n s = .next t) : MachineInvariant t := by
  induction n generalizing s with
  | zero =>
    cases hsteps
    exact h
  | succ n ih =>
    obtain ⟨u, hstep⟩ := everyInstructionAndStepAnswersANextState.2 m s
    rw [stepsWith_succ_of_next hstep] at hsteps
    exact ih (everyStepKeepsTheInvariant m s u h hstep) hsteps

/-- The loader's encode is five raw updates. -/
theorem MachineInvariant.encodeAt {s : State} (h : MachineInvariant s) (r : Record) : MachineInvariant (encodeAt s r) :=
  ((((h.setCell _ _).setCell _ _).setCell _ _).setCell _ _).setReg .ip _

theorem MachineInvariant.encodeProgram {s : State} (h : MachineInvariant s) (program : List Record) :
    MachineInvariant (encodeProgram program s) := by
  induction program with
  | nil => exact h.setReg .ip 0
  | cons r rest ih =>
    rw [encodeProgram_cons]
    exact ih.encodeAt r

theorem MachineInvariant.loadInto {s : State} (h : MachineInvariant s) (program : List Record) :
    MachineInvariant (loadInto program s) := by
  cases program with
  | nil => exact h.setReg .ip 0
  | cons r rest =>
    rw [loadInto_eq_setReg (List.cons_ne_nil r rest)]
    exact (((h.encodeProgram _).setReg .sp _).setReg .sb _).setReg .ip _

/-- Work of the machine that keeps its invariant keeps the session's, if it leaves a machine that is not Running alone: before a
Load the machine is the reset one, which is Halted. -/
theorem SessionInvariant.after {x : Session} (hx : SessionInvariant x) {t : State} (ht : MachineInvariant t)
    (hidle : x.machine.status ≠ .running → t = x.machine) : SessionInvariant { x with machine := t } := by
  refine ⟨ht, fun hnotLoaded => ?_⟩
  have hreset : x.machine = State.reset := hx.2 hnotLoaded
  rw [hreset, State.status_reset] at hidle
  exact hidle (by decide)

/-- Settles O42: Reset and Load answer sessions that are written out; Execute and Step do the machine's own work, which keeps
its invariant and leaves a machine that is not Running alone. -/
theorem everyTransactionKeepsTheInvariant : Obligations.EveryTransactionKeepsTheInvariant := by
  intro p tr x y hx htr
  cases tr with
  | reset =>
    cases htr
    exact resetStateMeetsTheInvariant.2
  | load program =>
    obtain ⟨-, rfl⟩ := loadWith_eq_next htr
    exact ⟨MachineInvariant.reset.loadInto program, nofun⟩
  | execute fuel =>
    obtain ⟨t, hexecute, rfl⟩ := Session.after_eq_next htr
    obtain ⟨-, n, -, hsteps⟩ := (executeReachesWhatStepsReach p.opcodeMap fuel _ t).1 hexecute
    refine hx.after (hx.1.stepsWith hsteps) fun hidle => ?_
    cases (executeWith_of_not_running p.opcodeMap fuel hidle).symm.trans hexecute
    rfl
  | step =>
    obtain ⟨t, hstep, rfl⟩ := Session.after_eq_next htr
    refine hx.after (everyStepKeepsTheInvariant p.opcodeMap _ t hx.1 hstep) fun hidle => ?_
    cases (stepWith_of_not_running p.opcodeMap hidle).symm.trans hstep
    rfl
  | inspect =>
    cases htr
    exact hx

end Sys2Proof.Machine

/-! # Inspect (R161): the stack window is the cells from SB up to SP -/

namespace Sys2Proof.Machine

/-- The window's `k`-th entry is the cell `k` above SB; below SP nothing wraps. -/
theorem mem_stackWindow {s : State} {a v : Word} :
    (a, v) ∈ stackWindow s ↔ s.reg .sb ≤ a ∧ a < s.reg .sp ∧ v = s.cell a := by
  simp only [stackWindow, List.mem_map, List.mem_range, Prod.mk.injEq]
  constructor
  · rintro ⟨k, hk, rfl, rfl⟩
    have hplace : (s.reg .sb + BitVec.ofNat 8 k).toNat = (s.reg .sb).toNat + k := by
      rw [BitVec.toNat_add, BitVec.toNat_ofNat]
      omega
    exact ⟨BitVec.le_def.2 (by omega), BitVec.lt_def.2 (by omega), rfl⟩
  · rintro ⟨hsb, hsp, rfl⟩
    have hoffset : s.reg .sb + BitVec.ofNat 8 (a.toNat - (s.reg .sb).toNat) = a := by bv_omega
    exact ⟨a.toNat - (s.reg .sb).toNat, by bv_omega, hoffset, by rw [hoffset]⟩

theorem stackWindow_eq_nil {s : State} (h : s.reg .sp ≤ s.reg .sb) : stackWindow s = [] := by
  rw [stackWindow, Nat.sub_eq_zero_of_le (BitVec.le_def.1 h)]
  rfl

/-- Settles O53: the window by `mem_stackWindow`; the rest of what is shown are the machine's own fields. -/
theorem inspectShowsTheStackWindow : Obligations.InspectShowsTheStackWindow :=
  fun _ _ => ⟨rfl, _, rfl, fun _ _ => mem_stackWindow, stackWindow_eq_nil, fun _ => rfl, rfl, rfl, rfl⟩

end Sys2Proof.Machine

/-! # The moves through a register's address (R82, R84, R85, R87, R88): source first, then destination (R75) -/

namespace Sys2Proof.Machine

/-- Settles O16: a [Reg] source gives the cell, or raises for its index or the guard; only then is the destination's index
looked at. -/
theorem moveFromMemoryToRegister : Obligations.MoveFromMemoryToRegister := by
  intro s
  refine ⟨fun dst r above => ?_, fun dst r hr => ?_, fun dst r below => ?_, fun dst r hdst above => ?_⟩
  · exact move_onlyRegister (memSource_of_le r above) (regDestination_index dst _ s)
  · exact move_onlyFault_of_source (memSource_of_gt s hr)
  · exact move_onlyFault_of_source (memSource_of_lt r below)
  · exact move_onlyFault_of_destination (memSource_of_le r above) (regDestination_of_gt _ s hdst)

/-- R75, R87: a store of a register through a register raises InvalidRegister when either index is bad, wherever the guard is. -/
theorem moveMemReg_onlyFault {d i : Word} (s : State) (h : 7 < d ∨ 7 < i) :
    ∃ t, finish (move (memDestination d) (regSource i)) s = .next t ∧ OnlyFault .invalidRegister s t := by
  obtain ⟨r, rfl⟩ | hi := Reg.index_cases i
  · have hd : 7 < d := h.resolve_right r.not_gt_index
    exact move_onlyFault_of_destination (regSource_index r s) (memDestination_of_gt _ s hd)
  · exact move_onlyFault_of_source (regSource_of_gt s hi)

/-- Settles O17: a register source has a value exactly for a good index; the destination's address then meets the guard. -/
theorem moveRegisterToMemory : Obligations.MoveRegisterToMemory := by
  intro s
  refine ⟨fun a r above => ?_, fun a r hr => ?_, fun a r below => ?_, fun dst r above => ?_, fun dst r hbad => ?_,
    fun dst r below => ?_⟩
  · exact move_onlyCell (regSource_index r s) (absDestination_of_le _ above)
  · exact move_onlyFault_of_source (regSource_of_gt s hr)
  · exact move_onlyFault_of_destination (regSource_index r s) (absDestination_of_lt _ below)
  · exact move_onlyCell (regSource_index r s) (memDestination_of_le dst _ above)
  · exact moveMemReg_onlyFault s hbad
  · exact move_onlyFault_of_destination (regSource_index r s) (memDestination_of_lt dst _ below)

/-- R75, R85: the guard stands at both ends of a copy to an absolute address. -/
theorem moveAbsMem_onlyFault {a : Word} {r : Reg} {s : State} (h : s.reg r < s.reg .sb ∨ a < s.reg .sb) :
    ∃ t, finish (move (absDestination a) (memSource r.index)) s = .next t ∧ OnlyFault .memoryGuardViolation s t := by
  by_cases below : s.reg r < s.reg .sb
  · exact move_onlyFault_of_source (memSource_of_lt r below)
  · have ha : a < s.reg .sb := h.resolve_left below
    exact move_onlyFault_of_destination (memSource_of_le r (BitVec.not_lt.1 below)) (absDestination_of_lt _ ha)

/-- Settles O18: the source raises for its index or the guard before the destination is looked at, which raises for the same two
in turn. -/
theorem moveMemoryToMemory : Obligations.MoveMemoryToMemory := by
  intro s
  refine ⟨fun a r srcAbove dstAbove => ?_, fun a r hr => ?_, fun a r below => ?_, fun dst r srcAbove dstAbove => ?_,
    fun dst r hr => ?_, fun dst r below => ?_, fun dst r hdst above => ?_, fun dst r above below => ?_⟩
  · exact move_onlyCell (memSource_of_le r srcAbove) (absDestination_of_le _ dstAbove)
  · exact move_onlyFault_of_source (memSource_of_gt s hr)
  · exact moveAbsMem_onlyFault below
  · exact move_onlyCell (memSource_of_le r srcAbove) (memDestination_of_le dst _ dstAbove)
  · exact move_onlyFault_of_source (memSource_of_gt s hr)
  · exact move_onlyFault_of_source (memSource_of_lt r below)
  · exact move_onlyFault_of_destination (memSource_of_le r above) (memDestination_of_gt _ s hdst)
  · exact move_onlyFault_of_destination (memSource_of_le r above) (memDestination_of_lt dst _ below)

end Sys2Proof.Machine

/-! # The division (R96, R97) and the conditional jumps on a register (R121, R123) -/

namespace Sys2Proof.Machine

/-- R98, R99: the quotient of words is the floor quotient, which is a word again. -/
theorem aluDiv_eq_floor {t v : Word} (h : v ≠ 0) : aluDiv t v = .ok (BitVec.ofNat 8 (t.toNat / v.toNat)) := by
  rw [aluDiv_of_ne h, ← BitVec.toNat_udiv, BitVec.ofNat_toNat, BitVec.setWidth_eq]

/-- Settles O21: a nonzero divisor gives the ALU's quotient, a zero one its fault (O22), and a bad index of either operand is
raised before the ALU is asked. -/
theorem divideGivesFloorQuotientOrFaults : Obligations.DivideGivesFloorQuotientOrFaults := by
  intro s
  obtain ⟨zeroImmediate, zeroRegister, -⟩ := arithmeticFaultIsDivisionByZeroAlone
  refine ⟨fun dst v hv => ?_, zeroImmediate s, fun dst v hdst => ?_, fun dst r hr => ?_, zeroRegister s,
    fun dst r hbad => ?_⟩
  · exact arithmetic_onlyRegister (immSource_apply v s) (aluDiv_eq_floor hv)
  · exact arithmetic_onlyFault_of_gt (immSource_apply v s) hdst
  · exact arithmetic_onlyRegister (regSource_index r s) (aluDiv_eq_floor hr)
  · exact arithmeticRegReg_onlyFault aluDiv s hbad

/-- R121, R123: performed, a conditional jump raises what the jump raises. -/
theorem finish_ifEqual_onlyFault {jump : Primitive} {s : State} {k : FaultKind} (heq : eqFlag (s.reg .f) = true)
    (hjump : jump s = .error k) : ∃ t, finish (ifEqual jump) s = .next t ∧ OnlyFault k s t :=
  finish_onlyFault ((ifEqual_of_eq heq).trans hjump)

/-- Settles O31: performed, it is the jump, with a register source that has a value exactly for a good index; not performed, the
source is never asked. -/
theorem conditionalJumpOnRegister : Obligations.ConditionalJumpOnRegister := by
  intro s
  refine ⟨fun r taken => ⟨?_, ?_⟩, fun r hr taken => ⟨?_, ?_⟩, fun r untaken => ⟨?_, ?_⟩⟩
  · exact finish_ifEqual_onlyIp taken (jumpRelative_of_ok (regSource_index r s))
  · exact finish_ifEqual_onlyIp taken (jumpAbsolute_of_ok (regSource_index r s))
  · exact finish_ifEqual_onlyFault taken (jumpRelative_of_error (regSource_of_gt s hr))
  · exact finish_ifEqual_onlyFault taken (jumpAbsolute_of_error (regSource_of_gt s hr))
  · exact finish_ifEqual_of_ne _ untaken
  · exact finish_ifEqual_of_ne _ untaken

end Sys2Proof.Machine

/-! # The stack family (R100 to R104) -/

namespace Sys2Proof.Machine

/-- R101, R102: what a push of `v` leaves: `v` in the cell SP pointed to, SP one higher, all else as before. -/
def Pushed (v : Word) (s t : State) : Prop :=
  t.cell (s.reg .sp) = v ∧ (∀ a, a ≠ s.reg .sp → t.cell a = s.cell a) ∧ t.reg .sp = s.reg .sp + 1 ∧
    (∀ q, q ≠ .sp → t.reg q = s.reg q) ∧ t.fault = s.fault

section PushEffect

variable {src : Source} {s : State} {v : Word}

theorem push_pushed (hsrc : src s = .ok v) (above : s.reg .sb ≤ s.reg .sp) :
    ∃ t, sequenceMicroOps (move (memDestination Reg.sp.index) src) (addRI 1 1) s = .next t ∧ Pushed v s t := by
  have hstore := (move_of_ok hsrc).trans (memDestination_of_le .sp v above)
  refine ⟨_, (sequenceMicroOps_of_ok hstore).trans (finish_of_ok (addRI_sp _)), ?_⟩
  exact ⟨s.cell_setCell_self _ v, fun _ => s.cell_setCell_of_ne v, State.reg_setReg_self _ .sp _,
    fun _ => State.reg_setReg_of_ne _ _, rfl⟩

/-- R100: a fault of the first micro-op is the fault of the pair, with nothing written. -/
theorem sequenceMicroOps_onlyFault {p : Primitive} (q : Primitive) {k : FaultKind} (h : p s = .error k) :
    ∃ t, sequenceMicroOps p q s = .next t ∧ OnlyFault k s t :=
  ⟨_, sequenceMicroOps_of_error h, onlyFault_takeFault s k⟩

theorem push_onlyFault_of_source {k : FaultKind} (hsrc : src s = .error k) :
    ∃ t, sequenceMicroOps (move (memDestination Reg.sp.index) src) (addRI 1 1) s = .next t ∧ OnlyFault k s t :=
  sequenceMicroOps_onlyFault _ (move_of_error hsrc)

theorem push_onlyFault_of_guard (hsrc : src s = .ok v) (below : s.reg .sp < s.reg .sb) :
    ∃ t, sequenceMicroOps (move (memDestination Reg.sp.index) src) (addRI 1 1) s = .next t ∧
      OnlyFault .memoryGuardViolation s t :=
  sequenceMicroOps_onlyFault _ ((move_of_ok hsrc).trans (memDestination_of_lt .sp v below))

end PushEffect

/-- Settles O23: an immediate source always has a value, so the guard alone decides. The encoding is the encoder's own up to the
opcode premise. -/
theorem pushImmediateStoresThenRaisesSp : Obligations.PushImmediateStoresThenRaisesSp := by
  intro s v
  refine ⟨fun above => ?_, fun below => ?_, fun m => ?_⟩
  · exact push_pushed (immSource_apply v s) above
  · exact push_onlyFault_of_guard (immSource_apply v s) below
  · exact congrArg (Record.mk · v 0 0)

/-- Settles O24: a register source gives the value in the state before both micro-ops, and a bad index raises before the
guard. -/
theorem pushRegisterStoresThenRaisesSp : Obligations.PushRegisterStoresThenRaisesSp := by
  intro s
  refine ⟨fun r above => ?_, fun r below => ?_, fun r hr => ?_⟩
  · exact push_pushed (regSource_index r s) above
  · exact push_onlyFault_of_guard (regSource_index r s) below
  · exact push_onlyFault_of_source (regSource_of_gt s hr)

/-- R103: the first micro-op cannot fail, so POP is `mov d, [SP]` in the state with SP lowered. -/
theorem exec_popR (x : Word) (s : State) :
    exec (.popR x) s = exec (.movRM x Reg.sp.index) (s.setReg .sp (s.reg .sp - 1)) :=
  sequenceMicroOps_of_ok (subRI_sp s)

/-- A fault taken after SP alone was written shows in the latch and in SP. -/
theorem OnlyFault.of_setReg_sp {k : FaultKind} {v : Word} {s t : State} (h : OnlyFault k (s.setReg .sp v) t) :
    t.fault = some k ∧ t.reg .sp = v ∧ (∀ q, q ≠ .sp → t.reg q = s.reg q) ∧ ∀ a, t.cell a = s.cell a := by
  obtain ⟨hfault, hreg, hcell⟩ := h
  exact ⟨hfault, (hreg .sp).trans (s.reg_setReg_self .sp v), fun q hq => (hreg q).trans (s.reg_setReg_of_ne v hq), hcell⟩

/-- Settles O25: what `mov d, [SP]` does in the state with SP lowered. -/
theorem popLowersSpThenLoads : Obligations.PopLowersSpThenLoads := by
  intro s
  have hsp : (s.setReg .sp (s.reg .sp - 1)).reg .sp = s.reg .sp - 1 := s.reg_setReg_self .sp _
  obtain ⟨load, -, guard, index⟩ := moveFromMemoryToRegister (s.setReg .sp (s.reg .sp - 1))
  simp only [exec_popR]
  refine ⟨fun dst above => ?_, fun dst below => ?_, fun dst hdst above => ?_⟩
  · obtain ⟨t, hexec, hvalue, hreg, hcell, hfault⟩ := load dst .sp (hsp.symm ▸ above)
    refine ⟨t, hexec, ?_, fun hne => (hreg .sp hne.symm).trans hsp, fun q hq hqsp => ?_, hcell, hfault⟩
    · rw [hvalue, hsp, State.cell_setReg]
    · rw [hreg q hq, s.reg_setReg_of_ne _ hqsp]
  · obtain ⟨t, hexec, honly⟩ := guard dst .sp (hsp.symm ▸ below)
    exact ⟨t, hexec, honly.of_setReg_sp⟩
  · obtain ⟨t, hexec, honly⟩ := index dst .sp hdst (hsp.symm ▸ above)
    exact ⟨t, hexec, honly.of_setReg_sp⟩

/-- R100: two micro-ops through the outcome of the first one: its latch tells whether the second is issued, if a first micro-op
that raises nothing keeps the latch. -/
theorem sequenceMicroOps_eq_ite {p q : Primitive} {s : State} (hs : s.fault = none)
    (hkeep : ∀ t, p s = .ok t → t.fault = s.fault) :
    ∃ u, finish p s = .next u ∧ sequenceMicroOps p q s = if u.fault = none then finish q u else .next u := by
  cases hp : p s with
  | ok t => exact ⟨t, finish_of_ok hp, by rw [sequenceMicroOps_of_ok hp, if_pos ((hkeep t hp).trans hs)]⟩
  | error k => exact ⟨s.takeFault k, finish_of_error hp, by rw [sequenceMicroOps_of_error hp, if_neg nofun]⟩

theorem moveMem_keeps_fault {x : Word} {src : Source} {s t : State} (h : move (memDestination x) src s = .ok t) :
    t.fault = s.fault := by
  obtain ⟨k, -, herror⟩ | ⟨v, -, hdst⟩ := move_cases (memDestination x) src s
  · cases herror.symm.trans h
  · obtain ⟨r, -, -, hok⟩ | ⟨-, herror⟩ | herror := memDestination_cases x v s
    · cases (hdst.trans hok).symm.trans h
      rfl
    · cases (hdst.trans herror).symm.trans h
    · cases (hdst.trans herror).symm.trans h

/-- Settles O26: each first micro-op keeps the latch when it raises nothing. -/
theorem pushAndPopAreTheirTwoMicroOps : Obligations.PushAndPopAreTheirTwoMicroOps := by
  intro s hs
  refine ⟨fun v => ?_, fun r => ?_, fun dst => ?_⟩
  · exact sequenceMicroOps_eq_ite hs fun _ => moveMem_keeps_fault
  · exact sequenceMicroOps_eq_ite hs fun _ => moveMem_keeps_fault
  · refine sequenceMicroOps_eq_ite (p := subRI 1 1) (q := movRM dst 1) hs fun t ht => ?_
    cases (subRI_sp s).symm.trans ht
    rfl

/-- R104(1): POP lowers the raised SP back to the cell the push stored to. -/
theorem pop_of_pushed {s t t' : State} {v ip : Word} (above : s.reg .sb ≤ s.reg .sp) (hpush : Pushed v s t)
    (hmoved : OnlyRegister .ip ip t t') (dst : Reg) :
    ∃ u, exec (.popR dst.index) t' = .next u ∧ u.fault = s.fault ∧ u.reg dst = v ∧
      (dst ≠ .sp → u.reg .sp = s.reg .sp) ∧ (dst ≠ .ip → u.reg .ip = ip) ∧
      (∀ r, r ≠ dst → r ≠ .sp → r ≠ .ip → u.reg r = s.reg r) ∧ ∀ a, a ≠ s.reg .sp → u.cell a = s.cell a := by
  obtain ⟨hstored, hothers, hraised, hregs, hlatch⟩ := hpush
  obtain ⟨hip, hreg, hcell, hfault⟩ := hmoved
  have hsp : t'.reg .sp - 1 = s.reg .sp := by rw [hreg .sp nofun, hraised, add_sub_cancel_right]
  have hsb : t'.reg .sb = s.reg .sb := (hreg .sb nofun).trans (hregs .sb nofun)
  obtain ⟨pops, -⟩ := popLowersSpThenLoads t'
  obtain ⟨u, hexec, hloaded, hlowered, hkept, hcells, hsame⟩ := pops dst (by rwa [hsp, hsb])
  refine ⟨u, hexec, ?_, ?_, fun hne => (hlowered hne).trans hsp, fun hne => ?_, fun r hr hrsp hrip => ?_, fun a ha => ?_⟩
  · rw [hsame, hfault, hlatch]
  · rw [hloaded, hsp, hcell, hstored]
  · rw [hkept .ip hne.symm nofun, hip]
  · rw [hkept r hr hrsp, hreg r hrip, hregs r hrsp]
  · rw [hcells, hcell, hothers a ha]

/-- Settles O27: both pushes leave the same thing. -/
theorem popReturnsThePushedValue : Obligations.PopReturnsThePushedValue := by
  intro s i v above hi
  suffices ∃ t, exec i s = .next t ∧ Pushed v s t by
    obtain ⟨t, hexec, hpush⟩ := this
    exact ⟨t, hexec, fun _ _ dst hmoved => pop_of_pushed above hpush hmoved dst⟩
  obtain rfl | ⟨r, rfl, rfl⟩ := hi
  · exact push_pushed (immSource_apply v s) above
  · exact push_pushed (regSource_index r s) above

end Sys2Proof.Machine

/-! # Coherence (R33, R40(2), R43): a store is seen by the next load and the next fetch -/

namespace Sys2Proof.Machine

/-- Settles O46: the store left its value in the cell and SB below it, and moving IP changes neither. -/
theorem loadReadsTheLastStore : Obligations.LoadReadsTheLastStore := by
  intro i s t t' a v ip dst r haddress hvalue hexec hnofault hmoved hr
  obtain ⟨above, hstored, -, hsb⟩ := exec_stores haddress hvalue hexec hnofault
  obtain ⟨-, hreg, hcell, -⟩ := hmoved
  obtain ⟨load, -⟩ := moveFromMemoryToRegister t'
  have hload := load dst r (by rwa [hreg .sb nofun, hsb, hr])
  rwa [hr, hcell, hstored] at hload

/-- Settles O47: the fetch reads the four cells that end at IP, and the store left its value in its cell. -/
theorem nextFetchSeesTheStore : Obligations.NextFetchSeesTheStore := by
  intro i s t a v haddress hvalue hexec hnofault
  obtain ⟨-, hstored, -⟩ := exec_stores haddress hvalue hexec hnofault
  rw [fetch_fst]
  have seen {b : Word} (hb : a = b) : t.cell b = v := hb ▸ hstored
  exact ⟨seen, seen, seen, seen⟩

end Sys2Proof.Machine

/-! # Protection (R36, R37): nothing below the stack base is written -/

namespace Sys2Proof.Machine

/-- Every store, PUSH's too, was let through by the guard. -/
theorem exec_cell_of_lt_sb {i : Instr} {s t : State} {a : Word} (h : exec i s = .next t) (ha : a < s.reg .sb) :
    t.cell a = s.cell a := by
  cases exec_cases h with
  | unchanged | register | pop | fault | popFault => rfl
  | store x v _ _ above | push v _ _ _ above => exact s.cell_setCell_of_ne v fun e => BitVec.not_le.2 ha (e ▸ above)

/-- Settles O44: the fetch moves IP, not SB, and the instruction's stores are guarded. -/
theorem noStepWritesBelowItsStackBase : Obligations.NoStepWritesBelowItsStackBase := by
  intro m s t a hstep ha
  obtain ⟨-, hidle⟩ | ⟨-, i, -, hexec⟩ | ⟨-, -, hinvalid⟩ := stepWith_cases m s
  · cases hidle.symm.trans hstep
    rfl
  · have hsb : (s.setReg .ip (s.reg .ip - 4)).reg .sb = s.reg .sb := s.reg_setReg_of_ne _ nofun
    exact (exec_cell_of_lt_sb (hexec.symm.trans hstep) (hsb.symm ▸ ha)).trans (s.cell_setReg .ip _ a)
  · cases hinvalid.symm.trans hstep
    rfl

end Sys2Proof.Machine

/-! # Non-interference (R36, R37): nothing below the stack base is read. From two states that differ only there, each operand form
gives the same value or the same fault, so each primitive makes the same raw update, or raises the same fault. -/

namespace Sys2Proof.Machine

/-- Two states agree on every register, on the latch, and on every cell from `b` up. -/
def AgreeFrom (b : Word) (s t : State) : Prop :=
  (∀ q, s.reg q = t.reg q) ∧ s.fault = t.fault ∧ ∀ a, b ≤ a → s.cell a = t.cell a

theorem sameAboveStackBase_iff {s t : State} : SameAboveStackBase s t ↔ AgreeFrom (s.reg .sb) s t := Iff.rfl

theorem SameAboveStackBase.agreeFrom {s t : State} (h : SameAboveStackBase s t) : AgreeFrom (s.reg .sb) s t :=
  sameAboveStackBase_iff.1 h

theorem SameAboveStackBase.reg_eq {s t : State} (h : SameAboveStackBase s t) (q : Reg) : s.reg q = t.reg q := h.1 q

section AgreeFrom

variable {b : Word} {s t : State}

theorem AgreeFrom.setReg (h : AgreeFrom b s t) (r : Reg) (v : Word) : AgreeFrom b (s.setReg r v) (t.setReg r v) := by
  obtain ⟨hreg, hfault, hcell⟩ := h
  exact ⟨fun q => by rw [State.reg_setReg, State.reg_setReg, hreg], hfault, hcell⟩

theorem AgreeFrom.setCell (h : AgreeFrom b s t) (a v : Word) : AgreeFrom b (s.setCell a v) (t.setCell a v) := by
  obtain ⟨hreg, hfault, hcell⟩ := h
  exact ⟨hreg, hfault, fun x hx => by rw [State.cell_setCell, State.cell_setCell, hcell x hx]⟩

theorem AgreeFrom.takeFault (h : AgreeFrom b s t) (k : FaultKind) : AgreeFrom b (s.takeFault k) (t.takeFault k) := by
  obtain ⟨hreg, -, hcell⟩ := h
  exact ⟨hreg, rfl, hcell⟩

end AgreeFrom

/-- Two answers of a primitive: states that agree from `b` up, or the same fault. -/
inductive SameAnswer (b : Word) : Except FaultKind State → Except FaultKind State → Prop where
  | ok {t t' : State} (h : AgreeFrom b t t') : SameAnswer b (.ok t) (.ok t')
  | error (k : FaultKind) : SameAnswer b (.error k) (.error k)

/-- A primitive that resolves the same value first answers alike if what it does with each value does. -/
theorem SameAnswer.bind {b : Word} {f g : Word → Except FaultKind State} (x : Except FaultKind Word)
    (h : ∀ v, SameAnswer b (f v) (g v)) : SameAnswer b (x >>= f) (x >>= g) := by
  cases x with
  | error k => exact .error k
  | ok v => exact h v

theorem SameAnswer.inversion {b : Word} {x x' : Except FaultKind State} (h : SameAnswer b x x') :
    (∃ t t', x = .ok t ∧ x' = .ok t' ∧ AgreeFrom b t t') ∨ ∃ k, x = .error k ∧ x' = .error k := by
  cases h with
  | ok hagree => exact .inl ⟨_, _, rfl, rfl, hagree⟩
  | error k => exact .inr ⟨k, rfl, rfl⟩

/-! ## The ports -/

section Ports

variable {s t : State}

theorem SameAboveStackBase.rd_eq (h : SameAboveStackBase s t) (i : Word) : s.rd i = t.rd i := by
  obtain ⟨r, rfl⟩ | hi := Reg.index_cases i
  · rw [State.rd_index, State.rd_index, h.reg_eq r]
  · rw [s.rd_of_gt hi, t.rd_of_gt hi]

theorem SameAboveStackBase.gRead_eq (h : SameAboveStackBase s t) (a : Word) : s.gRead a = t.gRead a := by
  obtain ⟨hreg, -, hcell⟩ := h
  obtain ⟨above, hread⟩ | ⟨below, hread⟩ := s.gRead_cases a
  · rw [hread, t.gRead_of_le (hreg .sb ▸ above), hcell a above]
  · rw [hread, t.gRead_of_lt (hreg .sb ▸ below)]

theorem SameAboveStackBase.wr (h : SameAboveStackBase s t) (i v : Word) :
    SameAnswer (s.reg .sb) (s.wr i v) (t.wr i v) := by
  obtain ⟨r, rfl⟩ | hi := Reg.index_cases i
  · rw [State.wr_index, State.wr_index]
    exact .ok (h.agreeFrom.setReg r v)
  · rw [s.wr_of_gt v hi, t.wr_of_gt v hi]
    exact .error _

theorem SameAboveStackBase.gWrite (h : SameAboveStackBase s t) (a v : Word) :
    SameAnswer (s.reg .sb) (s.gWrite a v) (t.gWrite a v) := by
  obtain ⟨above, hwrite⟩ | ⟨below, hwrite⟩ := s.gWrite_cases a v
  · rw [hwrite, t.gWrite_of_le v (h.reg_eq .sb ▸ above)]
    exact .ok (h.agreeFrom.setCell a v)
  · rw [hwrite, t.gWrite_of_lt v (h.reg_eq .sb ▸ below)]
    exact .error _

end Ports

/-! ## Sources and primitives -/

/-- A source whose value depends on no cell below the stack base. -/
def Source.ReadsAbove (src : Source) : Prop := ∀ s t, SameAboveStackBase s t → src s = src t

/-- A primitive whose answer depends on no cell below the stack base. -/
def Primitive.ReadsAbove (p : Primitive) : Prop :=
  ∀ s t, SameAboveStackBase s t → SameAnswer (s.reg .sb) (p s) (p t)

theorem immSource_readsAbove (v : Word) : Source.ReadsAbove (immSource v) := fun _ _ _ => rfl

theorem regSource_readsAbove (i : Word) : Source.ReadsAbove (regSource i) := fun _ _ h => h.rd_eq i

theorem memSource_readsAbove (i : Word) : Source.ReadsAbove (memSource i) := by
  intro s t h
  have hread : s.gRead = t.gRead := funext h.gRead_eq
  show (s.rd i >>= s.gRead) = (t.rd i >>= t.gRead)
  rw [h.rd_eq i, hread]

theorem regDestination_readsAbove (i v : Word) : Primitive.ReadsAbove (regDestination i v) := fun _ _ h => h.wr i v

theorem absDestination_readsAbove (a v : Word) : Primitive.ReadsAbove (absDestination a v) := fun _ _ h => h.gWrite a v

theorem memDestination_readsAbove (i v : Word) : Primitive.ReadsAbove (memDestination i v) := by
  intro s t h
  show SameAnswer _ (s.rd i >>= _) (t.rd i >>= _)
  rw [h.rd_eq i]
  exact .bind _ fun a => h.gWrite a v

section Families

variable {src : Source} (hsrc : Source.ReadsAbove src)
include hsrc

theorem move_readsAbove {dst : Destination} (hdst : ∀ v, Primitive.ReadsAbove (dst v)) :
    Primitive.ReadsAbove (move dst src) := by
  intro s t h
  show SameAnswer _ (src s >>= _) (src t >>= _)
  rw [hsrc s t h]
  exact .bind _ fun v => hdst v s t h

theorem arithmetic_readsAbove (op : AluOp) (d : Word) : Primitive.ReadsAbove (arithmetic op d src) := by
  intro s t h
  show SameAnswer _ (src s >>= fun v => s.rd d >>= fun x => op x v >>= s.wr d)
    (src t >>= fun v => t.rd d >>= fun x => op x v >>= t.wr d)
  rw [hsrc s t h, h.rd_eq d]
  exact .bind _ fun v => .bind _ fun x => .bind _ fun w => h.wr d w

theorem jumpRelative_readsAbove : Primitive.ReadsAbove (jumpRelative src) := by
  intro s t h
  show SameAnswer _ (src s >>= _) (src t >>= _)
  rw [hsrc s t h, h.reg_eq .ip]
  exact .bind _ fun v => .ok (h.agreeFrom.setReg .ip _)

theorem jumpAbsolute_readsAbove : Primitive.ReadsAbove (jumpAbsolute src) := by
  intro s t h
  show SameAnswer _ (src s >>= _) (src t >>= _)
  rw [hsrc s t h]
  exact .bind _ fun v => .ok (h.agreeFrom.setReg .ip v)

theorem compareOperands_readsAbove (i : Word) : Primitive.ReadsAbove (compareOperands i src) := by
  intro s t h
  show SameAnswer _ (src s >>= fun v => s.rd i >>= _) (src t >>= fun v => t.rd i >>= _)
  rw [hsrc s t h, h.rd_eq i, h.reg_eq .f]
  exact .bind _ fun v => .bind _ fun x => .ok (h.agreeFrom.setReg .f _)

end Families

theorem ifEqual_readsAbove {p : Primitive} (hp : Primitive.ReadsAbove p) : Primitive.ReadsAbove (ifEqual p) := by
  intro s t h
  cases heq : eqFlag (s.reg .f) with
  | true =>
    rw [ifEqual_of_eq heq, ifEqual_of_eq (h.reg_eq .f ▸ heq)]
    exact hp s t h
  | false =>
    rw [ifEqual_of_ne heq, ifEqual_of_ne (h.reg_eq .f ▸ heq)]
    exact .ok h.agreeFrom

/-! ## Outcomes -/

/-- An instruction whose next state depends on no cell below the stack base. -/
def OutcomeReadsAbove (o : State → Host.Outcome State Fault Refusal) : Prop :=
  ∀ s s' t t', SameAboveStackBase s s' → o s = .next t → o s' = .next t' → AgreeFrom (s.reg .sb) t t'

theorem finish_readsAbove {p : Primitive} (hp : Primitive.ReadsAbove p) : OutcomeReadsAbove (finish p) := by
  intro s s' t t' h ht ht'
  obtain ⟨u, u', hu, hu', hagree⟩ | ⟨k, hk, hk'⟩ := (hp s s' h).inversion
  · cases (finish_of_ok hu).symm.trans ht
    cases (finish_of_ok hu').symm.trans ht'
    exact hagree
  · cases (finish_of_error hk).symm.trans ht
    cases (finish_of_error hk').symm.trans ht'
    exact h.agreeFrom.takeFault k

/-- R100: the second micro-op starts from states that again differ only below the stack base, if the first one keeps SB. -/
theorem sequenceMicroOps_readsAbove {p q : Primitive} (hp : Primitive.ReadsAbove p) (hq : Primitive.ReadsAbove q)
    (hsb : ∀ s u, p s = .ok u → u.reg .sb = s.reg .sb) : OutcomeReadsAbove (sequenceMicroOps p q) := by
  intro s s' t t' h ht ht'
  obtain ⟨u, u', hu, hu', hagree⟩ | ⟨k, hk, hk'⟩ := (hp s s' h).inversion
  · rw [sequenceMicroOps_of_ok hu] at ht
    rw [sequenceMicroOps_of_ok hu'] at ht'
    rw [← hsb s u hu] at hagree ⊢
    exact finish_readsAbove hq u u' t t' (sameAboveStackBase_iff.2 hagree) ht ht'
  · cases (sequenceMicroOps_of_error hk).symm.trans ht
    cases (sequenceMicroOps_of_error hk').symm.trans ht'
    exact h.agreeFrom.takeFault k

/-- A primitive that is an instruction keeps SB if the instruction does not write it. -/
theorem keeps_sb_of_exec {i : Instr} {p : Primitive} (hexec : ∀ s, exec i s = finish p s)
    (hi : .sb ∉ writtenRegisters i) (s u : State) (h : p s = .ok u) : u.reg .sb = s.reg .sb :=
  instructionsKeepOtherRegisters i s u .sb ((hexec s).trans (finish_of_ok h)) hi

/-- Settles O45: each instruction is one primitive of its family on its operand forms, or two micro-ops of which the first does
not write SB. -/
theorem noInstructionReadsBelowItsStackBase : Obligations.NoInstructionReadsBelowItsStackBase := by
  intro i
  suffices OutcomeReadsAbove (exec i) from this
  cases i with
  | movRI d v => exact finish_readsAbove (move_readsAbove (immSource_readsAbove v) (regDestination_readsAbove d))
  | movRR d r => exact finish_readsAbove (move_readsAbove (regSource_readsAbove r) (regDestination_readsAbove d))
  | movRM d r => exact finish_readsAbove (move_readsAbove (memSource_readsAbove r) (regDestination_readsAbove d))
  | movAI a v => exact finish_readsAbove (move_readsAbove (immSource_readsAbove v) (absDestination_readsAbove a))
  | movAR a r => exact finish_readsAbove (move_readsAbove (regSource_readsAbove r) (absDestination_readsAbove a))
  | movAM a r => exact finish_readsAbove (move_readsAbove (memSource_readsAbove r) (absDestination_readsAbove a))
  | movMI d v => exact finish_readsAbove (move_readsAbove (immSource_readsAbove v) (memDestination_readsAbove d))
  | movMR d r => exact finish_readsAbove (move_readsAbove (regSource_readsAbove r) (memDestination_readsAbove d))
  | movMM d r => exact finish_readsAbove (move_readsAbove (memSource_readsAbove r) (memDestination_readsAbove d))
  | addRI d v | subRI d v | mulRI d v | divRI d v =>
    exact finish_readsAbove (arithmetic_readsAbove (immSource_readsAbove v) _ d)
  | addRR d r | subRR d r | mulRR d r | divRR d r =>
    exact finish_readsAbove (arithmetic_readsAbove (regSource_readsAbove r) _ d)
  | pushI v =>
    exact sequenceMicroOps_readsAbove (move_readsAbove (immSource_readsAbove v) (memDestination_readsAbove 1))
      (arithmetic_readsAbove (immSource_readsAbove 1) aluAdd 1)
      (keeps_sb_of_exec (i := .movMI 1 v) (fun _ => rfl) (by simp [writtenRegisters]))
  | pushR r =>
    exact sequenceMicroOps_readsAbove (move_readsAbove (regSource_readsAbove r) (memDestination_readsAbove 1))
      (arithmetic_readsAbove (immSource_readsAbove 1) aluAdd 1)
      (keeps_sb_of_exec (i := .movMR 1 r) (fun _ => rfl) (by simp [writtenRegisters]))
  | popR d =>
    exact sequenceMicroOps_readsAbove (arithmetic_readsAbove (immSource_readsAbove 1) aluSub 1)
      (move_readsAbove (memSource_readsAbove 1) (regDestination_readsAbove d))
      (keeps_sb_of_exec (i := .subRI 1 1) (fun _ => rfl) (by decide))
  | jmprI k => exact finish_readsAbove (jumpRelative_readsAbove (immSource_readsAbove k))
  | jmprR r => exact finish_readsAbove (jumpRelative_readsAbove (regSource_readsAbove r))
  | jmpaI x => exact finish_readsAbove (jumpAbsolute_readsAbove (immSource_readsAbove x))
  | jmpaR r => exact finish_readsAbove (jumpAbsolute_readsAbove (regSource_readsAbove r))
  | cmpRR a b => exact finish_readsAbove (compareOperands_readsAbove (regSource_readsAbove b) a)
  | cmpRI a v => exact finish_readsAbove (compareOperands_readsAbove (immSource_readsAbove v) a)
  | jerI k => exact finish_readsAbove (ifEqual_readsAbove (jumpRelative_readsAbove (immSource_readsAbove k)))
  | jerR r => exact finish_readsAbove (ifEqual_readsAbove (jumpRelative_readsAbove (regSource_readsAbove r)))
  | jeaI x => exact finish_readsAbove (ifEqual_readsAbove (jumpAbsolute_readsAbove (immSource_readsAbove x)))
  | jeaR r => exact finish_readsAbove (ifEqual_readsAbove (jumpAbsolute_readsAbove (regSource_readsAbove r)))

end Sys2Proof.Machine
